-- ==== Sys2Proof/Word.lean ====
section
/-! DEFINITION. The word types of the block: the widths that the spec's rules R6, R50 and R55 fix. -/

namespace Sys2Proof

/-- A byte of an envelope or payload, 8 bits (rule R6). -/
abbrev Byte := BitVec 8

/-- A 16-bit value: an accumulator, a header value, one payload group (rules R14, R15, R34, R36). -/
abbrev Half := BitVec 16

/-- A 32-bit value: an operand field, LEN, a trailer, a response datum (rules R16, R35, R50, R55). -/
abbrev Word := BitVec 32

/-- A command word, 40 bits (rule R50). -/
abbrev CommandWord := BitVec 40

/-- A response word, 36 bits (rule R55). -/
abbrev ResponseWord := BitVec 36

end Sys2Proof
end

