-- ==== Sys2Proof/Syntax.lean ====
section
/-! DEFINITION. The thirteen commands of rule R52, one constructor per row of spec/opcode_table.json. An operand has the
width its format gives it (rules R51, R53), so every term is a command in a legal format. -/

namespace Sys2Proof

/-- A command (rule R52). -/
inductive Instr where
  /-- NOP, op 0x00, format Z (rule R71). -/
  | nop
  /-- BEGIN, op 0x01, format Z (rule R72). -/
  | begin
  /-- STAT, op 0x02, format Z (rule R73). -/
  | stat
  /-- ENGF, op 0x03, format I1: `sel` = 0 for the inflate engine, 1 for the deflate engine (rule R74). -/
  | engf (sel : BitVec 1)
  /-- HLEN, op 0x10, format I32: `w` = the envelope's length (rule R90). -/
  | hlen (w : Word)
  /-- HCHK, op 0x11, format I16: `h` = the header value, CMF in the high byte (rule R91). -/
  | hchk (h : Half)
  /-- TCMP, op 0x12, format I32: `w` = the trailer value (rule R92). -/
  | tcmp (w : Word)
  /-- HEMIT, op 0x13, format Z (rule R93). -/
  | hemit
  /-- AINIT, op 0x20, format Z (rule R106). -/
  | ainit
  /-- AUPD, op 0x21, format I8: `d` = one data byte (rule R107). -/
  | aupd (d : Byte)
  /-- ARD, op 0x22, format Z (rule R108). -/
  | ard
  /-- SLEN, op 0x30, format I32: `w` = the payload's length (rule R124). -/
  | slen (w : Word)
  /-- SWAP, op 0x31, format I16: `h` = one payload group, lower position in the high byte (rule R125). -/
  | swap (h : Half)
  deriving DecidableEq, Repr

end Sys2Proof
end

