-- ==== Sys2Proof/WellFormed.lean ====
section
/-! DEFINITION. Which command words are well formed (rules R50, R51, R52, R54), said twice as the spec says it: by the two
conditions of rule R54 (a defined `op`, no reserved bit set) and by the mask and match columns of spec/opcode_table.json.
A term of `Instr` is well formed by its types; the ill-formed terms of this hardware are command words. -/

namespace Sys2Proof

/-- `op = cmd[39:32]` (rule R50). -/
def opField (w : CommandWord) : Byte := w.extractLsb' 32 8

/-- `arg = cmd[31:0]` (rule R50). -/
def argField (w : CommandWord) : Word := w.extractLsb' 0 32

/-- The five formats (rule R51). -/
inductive Format where
  /-- no operand -/
  | z
  /-- `sel = arg[0]` -/
  | i1
  /-- `d = arg[7:0]` -/
  | i8
  /-- `h = arg[15:0]` -/
  | i16
  /-- `w = arg[31:0]` -/
  | i32
  deriving DecidableEq, Repr

/-- How many low bits of `arg` carry the operand (rule R51). -/
def Format.operandBits : Format → Nat
  | .z => 0
  | .i1 => 1
  | .i8 => 8
  | .i16 => 16
  | .i32 => 32

/-- A row of spec/opcode_table.json: `op` (rule R52), the format, and the table's match and mask columns. -/
structure OpcodeRow where
  mnemonic : String
  op : Byte
  format : Format
  pattern : CommandWord
  mask : CommandWord
  deriving DecidableEq, Repr

/-- spec/opcode_table.json, row by row (rule R52). -/
def opcodeTable : List OpcodeRow :=
  [ ⟨"NOP",   0x00, .z,   0x0000000000, 0xFFFFFFFFFF⟩,
    ⟨"BEGIN", 0x01, .z,   0x0100000000, 0xFFFFFFFFFF⟩,
    ⟨"STAT",  0x02, .z,   0x0200000000, 0xFFFFFFFFFF⟩,
    ⟨"ENGF",  0x03, .i1,  0x0300000000, 0xFFFFFFFFFE⟩,
    ⟨"HLEN",  0x10, .i32, 0x1000000000, 0xFF00000000⟩,
    ⟨"HCHK",  0x11, .i16, 0x1100000000, 0xFFFFFF0000⟩,
    ⟨"TCMP",  0x12, .i32, 0x1200000000, 0xFF00000000⟩,
    ⟨"HEMIT", 0x13, .z,   0x1300000000, 0xFFFFFFFFFF⟩,
    ⟨"AINIT", 0x20, .z,   0x2000000000, 0xFFFFFFFFFF⟩,
    ⟨"AUPD",  0x21, .i8,  0x2100000000, 0xFFFFFFFF00⟩,
    ⟨"ARD",   0x22, .z,   0x2200000000, 0xFFFFFFFFFF⟩,
    ⟨"SLEN",  0x30, .i32, 0x3000000000, 0xFF00000000⟩,
    ⟨"SWAP",  0x31, .i16, 0x3100000000, 0xFFFFFF0000⟩ ]

/-- The format of a defined `op`, none for the other 243 values (rules R52, R54 (a)). -/
def formatOf (op : Byte) : Option Format :=
  (opcodeTable.find? (fun r => r.op == op)).map OpcodeRow.format

/-- All reserved bits of the format are 0 (rules R51, R54 (b)). -/
def reservedZero (f : Format) (arg : Word) : Bool := arg >>> f.operandBits == 0

/-- A word is well formed when its `op` is defined and its reserved bits are 0 (rule R54). -/
def wellFormed (w : CommandWord) : Bool :=
  match formatOf (opField w) with
  | none => false
  | some f => reservedZero f (argField w)

/-- The negation of rule R54's predicate `illegal(cmd)`: some row of the table has `cmd & mask == match`. -/
def legal (w : CommandWord) : Bool :=
  opcodeTable.any (fun r => w &&& r.mask == r.pattern)

end Sys2Proof
end

