-- ==== Sys2Proof/Decode.lean ====
section
/-! DEFINITION. The decoder, total on every 40-bit word (rules R50 to R54), and after it the encoder. -/

namespace Sys2Proof

/-- The operand of `n` low bits of `arg`, refused when a reserved bit above them is set (rules R51, R53, R54 (b)). -/
def takeOperand (n : Nat) (arg : Word) : Option (BitVec n) :=
  if arg >>> n = 0 then some (arg.setWidth n) else none

/-- The system family, ops 0x00 to 0x03 (rules R71 to R74). -/
def decodeSystem (op : Byte) (arg : Word) : Option Instr :=
  if op = 0x00#8 then (takeOperand 0 arg).map fun _ => .nop
  else if op = 0x01#8 then (takeOperand 0 arg).map fun _ => .begin
  else if op = 0x02#8 then (takeOperand 0 arg).map fun _ => .stat
  else if op = 0x03#8 then (takeOperand 1 arg).map .engf
  else none

/-- The container family, ops 0x10 to 0x13 (rules R90 to R93). -/
def decodeContainer (op : Byte) (arg : Word) : Option Instr :=
  if op = 0x10#8 then (takeOperand 32 arg).map .hlen
  else if op = 0x11#8 then (takeOperand 16 arg).map .hchk
  else if op = 0x12#8 then (takeOperand 32 arg).map .tcmp
  else if op = 0x13#8 then (takeOperand 0 arg).map fun _ => .hemit
  else none

/-- The checksum family, ops 0x20 to 0x22 (rules R106 to R108). -/
def decodeChecksum (op : Byte) (arg : Word) : Option Instr :=
  if op = 0x20#8 then (takeOperand 0 arg).map fun _ => .ainit
  else if op = 0x21#8 then (takeOperand 8 arg).map .aupd
  else if op = 0x22#8 then (takeOperand 0 arg).map fun _ => .ard
  else none

/-- The swap family, ops 0x30 and 0x31 (rules R124, R125). -/
def decodeSwap (op : Byte) (arg : Word) : Option Instr :=
  if op = 0x30#8 then (takeOperand 32 arg).map .slen
  else if op = 0x31#8 then (takeOperand 16 arg).map .swap
  else none

/-- The command of a pair of fields: the first family that knows the `op` (rule R52). -/
def decodeFields (op : Byte) (arg : Word) : Option Instr :=
  (decodeSystem op arg).or ((decodeContainer op arg).or ((decodeChecksum op arg).or (decodeSwap op arg)))

/-- The command a word stands for, none for an illegal word (rules R50, R52, R54). -/
def decode (w : CommandWord) : Option Instr := decodeFields (opField w) (argField w)

/-- The operation code of a command (rule R52). -/
def opcode : Instr → Byte
  | .nop => 0x00
  | .begin => 0x01
  | .stat => 0x02
  | .engf _ => 0x03
  | .hlen _ => 0x10
  | .hchk _ => 0x11
  | .tcmp _ => 0x12
  | .hemit => 0x13
  | .ainit => 0x20
  | .aupd _ => 0x21
  | .ard => 0x22
  | .slen _ => 0x30
  | .swap _ => 0x31

/-- The `arg` field of a command: its operand in the low bits, every reserved bit 0 (rules R51, R53). -/
def argument : Instr → Word
  | .engf sel => sel.setWidth 32
  | .hlen w => w
  | .hchk h => h.setWidth 32
  | .tcmp w => w
  | .aupd d => d.setWidth 32
  | .slen w => w
  | .swap h => h.setWidth 32
  | .nop => 0
  | .begin => 0
  | .stat => 0
  | .hemit => 0
  | .ainit => 0
  | .ard => 0

/-- The command word of a command, `cmd = op * 2^32 + arg` (rule R50). -/
def encode (i : Instr) : CommandWord := opcode i ++ argument i

/-- The command that the decoder reads from a word whose low `nbits` bits are `w` and whose other bits are 0. The table
numbers a row's 40 bits as the spec numbers the command word (rule R50): one word, bit 0 the least significant, no byte
order (rule R38 (c)). Log entry 5. -/
def decodeTableWord (nbits w : Nat) : Option Instr :=
  let v := w % 2 ^ nbits
  if v < 2 ^ 40 then decode (BitVec.ofNat 40 v) else none

end Sys2Proof
end

