-- ==== Sys2Proof/Machine/Operands.lean ====
section
/-! DEFINITION. Operand forms: how bytes of an envelope or payload are packed in operands and data (rules R37, R53). The
byte at the lower sequence position is in the more significant bits. -/

namespace Sys2Proof.Machine

/-- `h[15:8]`, the byte at the lower sequence position (rule R53). -/
def highByte (h : Half) : Byte := h.extractLsb' 8 8

/-- `h[7:0]`, the byte at the higher sequence position (rule R53). -/
def lowByte (h : Half) : Byte := h.extractLsb' 0 8

/-- `{x, y}` (rules R6, R37). -/
def joinBytes (x y : Byte) : Half := x ++ y

/-- `zext_32` of a 16-bit result (rules R7, R55). -/
def zextHalf (h : Half) : Word := h.setWidth 32

/-- `data[15:0]` (rules R93, R125). -/
def lowHalf (d : Word) : Half := d.extractLsb' 0 16

/-- `{t0, t1, t2, t3}`, a trailer value from its bytes in envelope order (rules R35, R37). -/
def joinTrailer (t0 t1 t2 t3 : Byte) : Word := t0 ++ t1 ++ t2 ++ t3

/-- The four bytes `c[31:24]`, `c[23:16]`, `c[15:8]`, `c[7:0]` in envelope order (rules R35, R86). -/
def trailerBytes (c : Word) : List Byte :=
  [c.extractLsb' 24 8, c.extractLsb' 16 8, c.extractLsb' 8 8, c.extractLsb' 0 8]

/-- The two bytes of a 16-bit result, lower sequence position first (rules R37, R93, R125). -/
def halfBytes (h : Half) : List Byte := [highByte h, lowByte h]

end Sys2Proof.Machine
end

