-- ==== Sys2Proof/Config.lean ====
section
/-! DEFINITION. What an implementation fixes and the spec leaves open: `FLG_CONST` (rules R5, R85) and `N_INST`
(rules R5, R158). Both are opaque: a proof holds whatever they are. -/

namespace Sys2Proof

/-- The four flag bytes an encoder may emit (rule R85): which one is open, so it is a type of four values. -/
inductive FlgConst where
  /-- 0x01 -/
  | flg01
  /-- 0x5E -/
  | flg5E
  /-- 0x9C -/
  | flg9C
  /-- 0xDA -/
  | flgDA
  deriving DecidableEq, Repr, Inhabited

/-- `FLG_CONST`, fixed for the life of every instance and shared by all of them (rules R12, R85, R158). OPEN in the
spec (decision D12): no value is known here. Log entry 6. -/
opaque Config.flgConst : FlgConst

/-- How many instances there are beyond the first. OPEN in the spec (decision D24). Log entry 7. -/
opaque Config.extraInstances : Nat

/-- `N_INST`, at least 1 (rules R5, R158). -/
def Config.nInst : Nat := Config.extraInstances + 1

end Sys2Proof
end

