-- ==== Sys2Proof/Machine/Params.lean ====
section
/-! DEFINITION. The constants of rule R5 under the spec's names. -/

namespace Sys2Proof.Machine

/-- `MOD`, the modulus of both accumulators (rule R5). -/
def modulus : Nat := 65521

/-- `A_INIT` (rule R5). -/
def aInit : Half := 1

/-- `B_INIT` (rule R5). -/
def bInit : Half := 0

/-- `CM`, the required compression-method nibble (rules R5, R32). -/
def cm : BitVec 4 := 8

/-- `CINFO`, the required window-size nibble (rules R5, R32). -/
def cinfo : BitVec 4 := 7

/-- `CMF_CONST`, the emitted header byte 0: the method in the low nibble, the window in the high one (rules R5, R84). -/
def cmfConst : Byte := cinfo ++ cm

/-- `FDICT_BIT`, the preset-dictionary bit of FLG, counted from the least significant (rules R5, R6). Log entry 15. -/
def fdictBit : Nat := 5

/-- `FCHECK_DIV` (rules R5, R34). -/
def fcheckDiv : Nat := 31

/-- `HDR_LEN` (rule R5). -/
def hdrLen : Nat := 2

/-- `TRL_LEN` (rule R5). -/
def trlLen : Nat := 4

/-- `MIN_ENV_LEN` (rules R5, R31). -/
def minEnvLen : Nat := 6

/-- The byte that a value of `FlgConst` stands for (rule R85). -/
def flgByte : FlgConst → Byte
  | .flg01 => 0x01
  | .flg5E => 0x5E
  | .flg9C => 0x9C
  | .flgDA => 0xDA

end Sys2Proof.Machine
end

