-- ==== Sys2Proof/Machine/State.lean ====
section
/-! DEFINITION. The state of one instance (rules R11, R14 to R17, R20) with the two sides of its command port, and the
reasons a step can stop. -/

namespace Sys2Proof.Machine

/-- The value of the STATUS register: `ok` or a fault code (rules R17, R141). Codes 11 to 15 are never produced and have no
value here (93_implementation_defined V2). The 4-bit codes are `Status.code`. Log entry 9. -/
inductive Status where
  /-- 0: no fault recorded since BEGIN or reset. -/
  | ok
  /-- 1: envelope shorter than 6 bytes (rule R142). -/
  | malformedContainer
  /-- 2: CMF low nibble is not 8 (rule R143). -/
  | unsupportedMethod
  /-- 3: CMF high nibble is not 7 (rule R144). -/
  | unsupportedWindowSize
  /-- 4: FLG bit 5 is set (rule R145). -/
  | unsupportedFeature
  /-- 5: header value not divisible by 31 (rule R146). -/
  | headerChecksumMismatch
  /-- 6: the external engine could not decompress (rule R147). -/
  | inflateFailure
  /-- 7: the trailer differs from the accumulated checksum (rule R148). -/
  | payloadChecksumMismatch
  /-- 8: odd payload length (rule R149). -/
  | invalidPayloadLength
  /-- 9: the external engine failed to compress (rule R150). -/
  | deflateFailure
  /-- 10: the word is no command in a legal format (rule R151). -/
  | illegalCommand
  deriving DecidableEq, Repr

/-- A response: STATUS after the command and the command's datum (rule R55). -/
structure Response where
  status : Status
  data : Word
  deriving DecidableEq, Repr

/-- What the host can do to an instance: present a command word (rule R10) or apply reset between two commands
(rule R170). -/
inductive HostEvent where
  /-- Present one command word. -/
  | command (w : CommandWord)
  /-- Apply reset. -/
  | reset
  deriving DecidableEq, Repr

/-- The state. The first four fields are the whole architectural state (rule R11). The last two are the model's own and
no command reads them: `rsp` is the output of the last step (rule R12; log entry 2) and `inbox` is what the host will
present next, in order (rules R18, R42; log entry 1). -/
structure State where
  /-- `A`, 16 bits (rule R14). -/
  a : Half
  /-- `B`, 16 bits (rule R15). -/
  b : Half
  /-- `LEN`, 32 bits (rule R16). -/
  len : Word
  /-- `STATUS`, 4 bits (rule R17). -/
  status : Status
  /-- The response the last step returned, if it returned one (rule R55). -/
  rsp : Option Response
  /-- The commands and resets still to be presented, the next one first. -/
  inbox : List HostEvent
  deriving DecidableEq, Repr

/-- Reasons for the machine to stop: there are none. Every command word has exactly one outcome from every state
(rules R10, R178), and the faults of rule R140 are values of STATUS, after which the block goes on. Log entry 10. -/
inductive Fault where
  deriving DecidableEq, Repr

/-- Reasons to give something no meaning. -/
inductive Refusal where
  /-- Raised by an arm of `exec` whose instruction has no meaning yet: safe, since the machine stops. No arm raises it. -/
  | notModelled (mnemonic : String)
  /-- Raised by the host's procedures, never by a command or a step: an envelope or payload of 2^32 bytes or more is not
  presented to the block, and the model refuses its conversion (decision D22, 93_implementation_defined V5, duty H13 of
  rule R175). Safe, since the conversion gets no result. Log entry 13. -/
  | undeclarableLength
  deriving DecidableEq, Repr

/-- The state after reset: `S0 = (1, 0, 0, 0)` (rules R20, R171), no response given and nothing presented yet. -/
def State.reset : State :=
  { a := 1, b := 0, len := 0, status := .ok, rsp := none, inbox := [] }

end Sys2Proof.Machine
end

