-- ==== Sys2Proof/Machine/Algorithms.lean ====
section
/-! DEFINITION. The pure functions of the source: header check (rule R80), trailer check (R83), emitted header (R84),
checksum (R100, R101, R104) with its 17-bit datapath (R102, R103), and swap (R120, R121, R123). -/

namespace Sys2Proof.Machine

/-- `hdr_check(n, h)`: the first failing condition in the listed order, or `ok` (rule R80). -/
def hdrCheck (n : Nat) (h : Half) : Status :=
  if n < minEnvLen then .malformedContainer
  else if (highByte h).extractLsb' 0 4 ≠ cm then .unsupportedMethod
  else if (highByte h).extractLsb' 4 4 ≠ cinfo then .unsupportedWindowSize
  else if (lowByte h).getLsbD fdictBit then .unsupportedFeature
  else if h.toNat % fcheckDiv ≠ 0 then .headerChecksumMismatch
  else .ok

/-- `trl_check(t, c)`: all 32 bits are compared (rule R83). -/
def trlCheck (t c : Word) : Status :=
  if t = c then .ok else .payloadChecksumMismatch

/-- `HDR_CONST = 0x7800 | FLG_CONST`, as `{0x78, FLG_CONST}`, for a given flag byte (rules R84, R93). -/
def emittedHeader (f : FlgConst) : Half := joinBytes cmfConst (flgByte f)

/-- `adl_step((a, b), d)`: the sums are in the natural numbers, and `b'` uses the new `a'` (rules R101, R103). -/
def adlStep (ab : Half × Half) (d : Byte) : Half × Half :=
  let a' := (ab.1.toNat + d.toNat) % modulus
  let b' := (ab.2.toNat + a') % modulus
  (BitVec.ofNat 16 a', BitVec.ofNat 16 b')

/-- `pack((a, b)) = (b << 16) | a` (rules R101, R104). -/
def pack (a b : Half) : Word := (b.setWidth 32 <<< 16) ||| a.setWidth 32

/-- The running values after a byte sequence, from `(1, 0)` (rules R100, R101). -/
def accumulate (data : List Byte) : Half × Half := data.foldl adlStep (aInit, bInit)

/-- `checksum(data)` (rules R100, R101). -/
def checksum (data : List Byte) : Word := pack (accumulate data).1 (accumulate data).2

/-- Reduction of a 17-bit sum by one conditional subtraction (rule R102). -/
def reduceOnce (x : BitVec 17) : Half :=
  if x < 65521#17 then x.setWidth 16 else (x - 65521#17).setWidth 16

/-- `adl_step` as 17-bit adders with one conditional subtraction each, the form that rules R102 and R103 describe for a
hardware implementation. The commands use `adlStep`; this one is for comparison with it. -/
def adlStepDatapath (ab : Half × Half) (d : Byte) : Half × Half :=
  let a' := reduceOnce (ab.1.setWidth 17 + d.setWidth 17)
  let b' := reduceOnce (ab.2.setWidth 17 + a'.setWidth 17)
  (a', b')

/-- `swap_pair(h) = ((h & 0xFF) << 8) | (h >> 8)` (rule R121). -/
def swapPair (h : Half) : Half := ((h &&& 0xFF) <<< 8) ||| (h >>> 8)

/-- The bytes of consecutive pairs exchanged (rule R120); a last byte without a partner is dropped, which only
`swapPayload` below may rule out. -/
def swapPairs : List Byte → List Byte
  | x :: y :: rest => y :: x :: swapPairs rest
  | _ => []

/-- `swap(payload)`: total on even lengths, `InvalidPayloadLength` and no output on odd ones (rules R120, R123). -/
def swapPayload (p : List Byte) : Except Status (List Byte) :=
  if p.length % 2 = 0 then .ok (swapPairs p) else .error .invalidPayloadLength

end Sys2Proof.Machine
end

