-- ==== Sys2Proof/Machine/Flags.lean ====
section
/-! DEFINITION. The block's only flag-like state, the STATUS register (rules R17, R141), and the response word that shows it
(rule R55). There are no condition codes, carry, zero or overflow flags (rule R17). -/

namespace Sys2Proof.Machine

/-- The 4-bit code of a STATUS value (rule R141). -/
def Status.code : Status → BitVec 4
  | .ok => 0
  | .malformedContainer => 1
  | .unsupportedMethod => 2
  | .unsupportedWindowSize => 3
  | .unsupportedFeature => 4
  | .headerChecksumMismatch => 5
  | .inflateFailure => 6
  | .payloadChecksumMismatch => 7
  | .invalidPayloadLength => 8
  | .deflateFailure => 9
  | .illegalCommand => 10

/-- *Faulted*: `STATUS != 0` (rule R17). -/
def faulted (s : State) : Bool := s.status != .ok

/-- `zext_32(STATUS)`, STAT's datum (rules R7, R73). -/
def statusData (st : Status) : Word := st.code.setWidth 32

/-- The 36-bit response word: `status` in bits 35:32, `data` in bits 31:0 (rule R55). -/
def Response.word (r : Response) : ResponseWord := r.status.code ++ r.data

end Sys2Proof.Machine
end

