-- ==== Sys2Proof/Machine/Ops.lean ====
section
/-! DEFINITION. The named operations on the state: register writes, the response, raising a fault (rules R7, R152), the abort
gating of the wrapper (rule R70), the illegal word (R54, R151), reset (R171), and the command port (R10, R42). -/

namespace Sys2Proof.Machine

/-- `A <- v`. -/
def State.setA (s : State) (v : Half) : State := { s with a := v }

/-- `B <- v`. -/
def State.setB (s : State) (v : Half) : State := { s with b := v }

/-- `LEN <- v`. -/
def State.setLen (s : State) (v : Word) : State := { s with len := v }

/-- `STATUS <- v`. -/
def State.setStatus (s : State) (v : Status) : State := { s with status := v }

/-- The output of the step. -/
def State.setRsp (s : State) (v : Option Response) : State := { s with rsp := v }

/-- What the host will present next. -/
def State.setInbox (s : State) (v : List HostEvent) : State := { s with inbox := v }

/-- `respond(d)`: response `{STATUS, d}` with STATUS as the command leaves it (rules R7, R55). -/
def respond (d : Word) (s : State) : State := s.setRsp (some ⟨s.status, d⟩)

/-- `raise F`, the block's taking of a fault: STATUS takes the code if it is 0, no other register is written, and the
response is `{STATUS, 0}` (rules R7, R152). It transfers control nowhere and saves nothing (rule R140). -/
def raise (f : Status) (s : State) : State :=
  respond 0 (if s.status = .ok then s.setStatus f else s)

/-- `if s != OK: raise s; respond(0)`, the end of every checking command (rules R91, R92, R124). -/
def settle (verdict : Status) (s : State) : State :=
  if verdict = .ok then respond 0 s else raise verdict s

/-- The four registers to `S0 = (1, 0, 0, 0)` (rules R20, R72, R171). -/
def toS0 (s : State) : State := (((s.setA aInit).setB bInit).setLen 0).setStatus .ok

/-- The wrapper's abort gating: a faulted block ignores the command, no register changes, response `{STATUS, 0}`
(rule R70 (a)). -/
def whenClear (run : State → State) (s : State) : State :=
  if faulted s then respond 0 s else run s

/-- An illegal word raises `IllegalCommand`; while faulted the first fault stays (rules R54, R70 (b), R151). -/
def takeIllegal (s : State) : State := raise .illegalCommand s

/-- Reset: the registers go to `S0` whatever they were, and no response is produced (rule R171). Log entry 4. -/
def takeReset (s : State) : State := (toS0 s).setRsp none

/-- Nothing is presented: no register changes (rule R10), and no response is returned. Log entry 3. -/
def idle (s : State) : State := s.setRsp none

/-- The next thing the host presents, and the state without it (rules R10, R42). -/
def takeEvent (s : State) : Option (HostEvent × State) :=
  match s.inbox with
  | [] => none
  | e :: rest => some (e, s.setInbox rest)

/-- The host presents `w` before anything else. -/
def presentFirst (w : CommandWord) (s : State) : State := s.setInbox (.command w :: s.inbox)

end Sys2Proof.Machine
end

