-- ==== Sys2Proof/Machine/Checksum.lean ====
section
/-! DEFINITION. The checksum accumulator: AINIT, AUPD, ARD (42_adler32.md). -/

namespace Sys2Proof.Machine

/-- AINIT: `A <- 1; B <- 0`, LEN and STATUS untouched (rule R106). -/
def execAinit (s : State) : Host.Outcome State Fault Refusal :=
  .next (whenClear (fun t => respond 0 ((t.setA aInit).setB bInit)) s)

/-- AUPD: `(A, B) <- adl_step((A, B), d)` (rule R107). -/
def execAupd (d : Byte) (s : State) : Host.Outcome State Fault Refusal :=
  .next (whenClear (fun t => respond 0 ((t.setA (adlStep (t.a, t.b) d).1).setB (adlStep (t.a, t.b) d).2)) s)

/-- ARD: `respond((B << 16) | A)` (rule R108). -/
def execArd (s : State) : Host.Outcome State Fault Refusal :=
  .next (whenClear (fun t => respond (pack t.a t.b) t) s)

end Sys2Proof.Machine
end

