-- ==== Sys2Proof/Machine/Container.lean ====
section
/-! DEFINITION. The envelope header validator: HLEN, HCHK, TCMP, HEMIT (41_container.md). -/

namespace Sys2Proof.Machine

/-- HLEN: `LEN <- w` (rule R90). -/
def execHlen (w : Word) (s : State) : Host.Outcome State Fault Refusal :=
  .next (whenClear (fun t => respond 0 (t.setLen w)) s)

/-- HCHK: `hdr_check(LEN, h)`, its fault raised if it is not OK (rule R91). -/
def execHchk (h : Half) (s : State) : Host.Outcome State Fault Refusal :=
  .next (whenClear (fun t => settle (hdrCheck t.len.toNat h) t) s)

/-- TCMP: the operand against `(B << 16) | A` as it stands (rule R92). -/
def execTcmp (w : Word) (s : State) : Host.Outcome State Fault Refusal :=
  .next (whenClear (fun t => settle (trlCheck w (pack t.a t.b)) t) s)

/-- HEMIT: `respond(zext_32({0x78, FLG_CONST}))` (rule R93). -/
def execHemit (s : State) : Host.Outcome State Fault Refusal :=
  .next (whenClear (respond (zextHalf (emittedHeader Config.flgConst))) s)

end Sys2Proof.Machine
end

