-- ==== Sys2Proof/Machine/Swap.lean ====
section
/-! DEFINITION. The byte-pair swap: SLEN, SWAP (43_byte_pair_swap.md). -/

namespace Sys2Proof.Machine

/-- SLEN: `InvalidPayloadLength` when `w[0] == 1`; the length is checked, not stored (rule R124). -/
def execSlen (w : Word) (s : State) : Host.Outcome State Fault Refusal :=
  .next (whenClear (settle (if w.getLsbD 0 then .invalidPayloadLength else .ok)) s)

/-- SWAP: `respond(zext_32({h[7:0], h[15:8]}))` (rule R125). -/
def execSwap (h : Half) (s : State) : Host.Outcome State Fault Refusal :=
  .next (whenClear (respond (zextHalf (joinBytes (lowByte h) (highByte h)))) s)

end Sys2Proof.Machine
end

