-- ==== Sys2Proof/Machine/SystemCommands.lean ====
section
/-! DEFINITION. The system commands NOP, BEGIN, STAT, ENGF (40_system.md). -/

namespace Sys2Proof.Machine

/-- NOP: `respond(0)`, executed whether or not the block is faulted (rule R71). -/
def execNop (s : State) : Host.Outcome State Fault Refusal :=
  .next (respond 0 s)

/-- BEGIN: all four registers to `S0`, executed whether or not the block is faulted (rule R72). -/
def execBegin (s : State) : Host.Outcome State Fault Refusal :=
  .next (respond 0 (toS0 s))

/-- STAT: `respond(zext_32(STATUS))`, executed whether or not the block is faulted (rule R73). -/
def execStat (s : State) : Host.Outcome State Fault Refusal :=
  .next (respond (statusData s.status) s)

/-- ENGF: `InflateFailure` for `sel = 0`, `DeflateFailure` for `sel = 1` (rule R74). -/
def execEngf (sel : BitVec 1) (s : State) : Host.Outcome State Fault Refusal :=
  .next (whenClear (raise (if sel = 0 then .inflateFailure else .deflateFailure)) s)

end Sys2Proof.Machine
end

