-- ==== Sys2Proof/Machine/Dispatch.lean ====
section
/-! DEFINITION. One arm per command: the `exec_<MNEMONIC>` of the wrapper of rule R70. -/

namespace Sys2Proof.Machine

/-- The effect of a command (rule R70), the abort gating included. -/
def exec (i : Instr) (s : State) : Host.Outcome State Fault Refusal :=
  match i with
  | .nop => Sys2Proof.Machine.execNop s
  | .begin => Sys2Proof.Machine.execBegin s
  | .stat => Sys2Proof.Machine.execStat s
  | .engf sel => Sys2Proof.Machine.execEngf sel s
  | .hlen w => Sys2Proof.Machine.execHlen w s
  | .hchk h => Sys2Proof.Machine.execHchk h s
  | .tcmp w => Sys2Proof.Machine.execTcmp w s
  | .hemit => Sys2Proof.Machine.execHemit s
  | .ainit => Sys2Proof.Machine.execAinit s
  | .aupd d => Sys2Proof.Machine.execAupd d s
  | .ard => Sys2Proof.Machine.execArd s
  | .slen w => Sys2Proof.Machine.execSlen w s
  | .swap h => Sys2Proof.Machine.execSwap h s

end Sys2Proof.Machine
end

