-- ==== Sys2Proof/Machine/Present.lean ====
section
/-! DEFINITION. The wrapper of rule R70 for one command word, and the effect of one thing the host does (rules R10, R170). -/

namespace Sys2Proof.Machine

/-- Rule R70's `step(cmd)`: an illegal word raises `IllegalCommand`, a legal one is executed. -/
def execWord (w : CommandWord) (s : State) : Host.Outcome State Fault Refusal :=
  match decode w with
  | none => .next (takeIllegal s)
  | some i => exec i s

/-- One event of the host's: a command word (rule R70) or reset (rule R171). -/
def present (e : HostEvent) (s : State) : Host.Outcome State Fault Refusal :=
  match e with
  | .command w => execWord w s
  | .reset => .next (takeReset s)

end Sys2Proof.Machine
end

