-- ==== Sys2Proof/Machine/Step.lean ====
section
/-! DEFINITION. One step: the host's next command or reset takes effect; with nothing presented nothing happens. -/

namespace Sys2Proof.Machine

/-- One step of the block (rules R10, R42, R70, R170). -/
def step (s : State) : Host.Outcome State Fault Refusal :=
  match takeEvent s with
  | none => .next (idle s)
  | some (e, t) => present e t

/-- `s` with the command word whose low `nbits` bits are `w` (the others 0) presented next. Log entry 5. -/
def State.withFetchWord (s : State) (nbits w : Nat) : State :=
  presentFirst (BitVec.ofNat 40 (w % 2 ^ nbits)) s

end Sys2Proof.Machine
end

