-- ==== Sys2Proof/Machine/Pseudo.lean ====
section
/-! DEFINITION. The pseudo-commands of rule R58 as the command sequences they stand for. -/

namespace Sys2Proof.Machine

/-- A length that HLEN or SLEN can declare (decision D22, duty H13 of rule R175). -/
def declarable (b : List Byte) : Bool := b.length < 2 ^ 32

/-- A length as an operand, none for one that cannot be declared: it is never truncated (rules R53, R90, R124). -/
def lengthOperand (b : List Byte) : Option Word :=
  if declarable b then some (BitVec.ofNat 32 b.length) else none

/-- `AUPD b(k)` for every byte, in order (rule R58). -/
def feed (b : List Byte) : List Instr := b.map .aupd

/-- `CKSUM b0, ..., b(n-1)` (rule R58). -/
def cksum (b : List Byte) : List Instr := .ainit :: (feed b ++ [.ard])

/-- One SWAP per complete group, `floor(n/2)` of them (rule R58). -/
def swaps : List Byte → List Instr
  | x :: y :: rest => .swap (joinBytes x y) :: swaps rest
  | _ => []

/-- `SWAPSEQ b0, ..., b(n-1)` (rule R58); none where SLEN cannot declare `n` (rule R124). -/
def swapSeq (b : List Byte) : Option (List Instr) :=
  (lengthOperand b).map fun n => .slen n :: swaps b

/-- `HDRCHK n, cmf, flg` (rule R58). -/
def hdrChk (n : Word) (cmf flg : Byte) : List Instr := [.hlen n, .hchk (joinBytes cmf flg)]

/-- `TRLCHK t0, t1, t2, t3` (rule R58). -/
def trlChk (t0 t1 t2 t3 : Byte) : List Instr := [.tcmp (joinTrailer t0 t1 t2 t3)]

end Sys2Proof.Machine
end

