-- ==== Sys2Proof/Machine/Assembler.lean ====
section
/-! DEFINITION. The assembler of rule R57 with the pseudo-commands of rule R58: text to command words. Log entry 14. -/

namespace Sys2Proof.Machine

/-- The mnemonic of a command (rule R52). -/
def mnemonic : Instr → String
  | .nop => "NOP"
  | .begin => "BEGIN"
  | .stat => "STAT"
  | .engf _ => "ENGF"
  | .hlen _ => "HLEN"
  | .hchk _ => "HCHK"
  | .tcmp _ => "TCMP"
  | .hemit => "HEMIT"
  | .ainit => "AINIT"
  | .aupd _ => "AUPD"
  | .ard => "ARD"
  | .slen _ => "SLEN"
  | .swap _ => "SWAP"

/-- The operand a command is written with: none in format Z, else one number (rule R57). -/
def writtenOperands : Instr → List Nat
  | .engf sel => [sel.toNat]
  | .hlen w => [w.toNat]
  | .hchk h => [h.toNat]
  | .tcmp w => [w.toNat]
  | .aupd d => [d.toNat]
  | .slen w => [w.toNat]
  | .swap h => [h.toNat]
  | .nop => []
  | .begin => []
  | .stat => []
  | .hemit => []
  | .ainit => []
  | .ard => []

/-- `cmd = op * 2^32 + operand`; an operand that does not fit the format's field is rejected (rule R57). -/
def assembleCommand (name : List Char) (operands : List Nat) : Option CommandWord :=
  match opcodeTable.find? (fun r => r.mnemonic.toList == name) with
  | none => none
  | some r =>
    match r.format, operands with
    | .z, [] => some (r.op ++ 0#32)
    | .z, _ => none
    | f, [n] => if n < 2 ^ f.operandBits then some (r.op ++ BitVec.ofNat 32 n) else none
    | _, _ => none

/-- The operands as bytes, if every one fits (rule R58). -/
def asBytes : List Nat → Option (List Byte)
  | [] => some []
  | n :: ns => if n < 256 then (asBytes ns).map (BitVec.ofNat 8 n :: ·) else none

/-- A pseudo-command's expansion; none if an operand does not fit, or the length cannot be declared (rule R58,
decision D22). -/
def assemblePseudo (name : List Char) (operands : List Nat) : Option (List Instr) :=
  if name = "CKSUM".toList then (asBytes operands).map cksum
  else if name = "SWAPSEQ".toList then
    (asBytes operands).bind swapSeq
  else if name = "HDRCHK".toList then
    match operands with
    | n :: rest =>
      match asBytes rest with
      | some [cmf, flg] => if n < 2 ^ 32 then some (hdrChk (BitVec.ofNat 32 n) cmf flg) else none
      | _ => none
    | [] => none
  else if name = "TRLCHK".toList then
    match asBytes operands with
    | some [t0, t1, t2, t3] => some (trlChk t0 t1 t2 t3)
    | _ => none
  else none

/-- The directive `.word`: one raw command word, legal or not (rule R57). -/
def assembleRaw (operands : List Nat) : Option (List CommandWord) :=
  match operands with
  | [n] => if n < 2 ^ 40 then some [BitVec.ofNat 40 n] else none
  | _ => none

/-- One statement: the directive, a pseudo-command or a command. -/
def assembleStatement (name : List Char) (operands : List Nat) : Option (List CommandWord) :=
  if name = ".word".toList then assembleRaw operands
  else match assemblePseudo name operands with
    | some is => some (is.map encode)
    | none => (assembleCommand name operands).map fun w => [w]

/-- The value of a digit, 16 for any other character. -/
def digitValue (c : Char) : Nat :=
  if '0' ≤ c ∧ c ≤ '9' then c.toNat - '0'.toNat
  else if 'A' ≤ c ∧ c ≤ 'F' then c.toNat - 'A'.toNat + 10
  else if 'a' ≤ c ∧ c ≤ 'f' then c.toNat - 'a'.toNat + 10
  else 16

/-- The digits of a number, the most significant first. -/
def readDigits (base acc : Nat) : List Char → Option Nat
  | [] => some acc
  | c :: cs => if digitValue c < base then readDigits base (acc * base + digitValue c) cs else none

/-- A number, hexadecimal with `0x`, else decimal (rules R6, R57). -/
def readNumber : List Char → Option Nat
  | [] => none
  | '0' :: 'x' :: c :: cs => readDigits 16 0 (c :: cs)
  | cs => readDigits 10 0 cs

/-- The pieces between the separators, one more than there are separators. -/
def splitAtChar (sep : Char) : List Char → List (List Char)
  | [] => [[]]
  | c :: cs =>
    match splitAtChar sep cs with
    | [] => [[c]]
    | w :: ws => if c = sep then [] :: w :: ws else (c :: w) :: ws

/-- One space after a comma is no part of the operand (rule R58). -/
def dropSpace : List Char → List Char
  | ' ' :: cs => cs
  | cs => cs

/-- Every number of a list of texts, if each is one. -/
def readNumbers : List (List Char) → Option (List Nat)
  | [] => some []
  | t :: ts => (readNumber t).bind fun n => (readNumbers ts).map (n :: ·)

/-- The operands after the mnemonic: nothing, or one space and numbers with commas between (rules R57, R58). -/
def readOperands : List Char → Option (List Nat)
  | [] => some []
  | ' ' :: cs =>
    match splitAtChar ',' cs with
    | [] => none
    | t :: ts => readNumbers (t :: ts.map dropSpace)
  | _ => none

/-- Comment and trailing blanks taken off a line (rule R57). -/
def stripLine (line : List Char) : List Char :=
  ((line.takeWhile (· != ';')).reverse.dropWhile (fun c => c == ' ' || c == '\t')).reverse

/-- One line: nothing for a blank one, else the words of its statement; none if it is rejected (rule R57). -/
def assembleLine (line : List Char) : Option (List CommandWord) :=
  match stripLine line with
  | [] => some []
  | c :: cs =>
    (readOperands ((c :: cs).dropWhile (· != ' '))).bind
      (assembleStatement ((c :: cs).takeWhile (· != ' ')))

/-- The lines in order, if none is rejected. -/
def assembleLines : List (List Char) → Option (List CommandWord)
  | [] => some []
  | l :: ls => (assembleLine l).bind fun ws => (assembleLines ls).map (ws ++ ·)

/-- A text of one command per line (rule R57). -/
def assemble (text : String) : Option (List CommandWord) := assembleLines (splitAtChar '\n' text.toList)

end Sys2Proof.Machine
end

