-- ==== Sys2Proof/Machine/Reference.lean ====
section
/-! DEFINITION. The envelope's layout (rules R31 to R35) and the source's whole decode, encode and conversion with the
compression engine as a parameter (rules R87 to R89). -/

namespace Sys2Proof.Machine

/-- The external compression engine: two uninterpreted functions, `none` for a failure (rules R87, R88; 90_conflicts C4).
Log entry 12. -/
structure Engine where
  inflate : List Byte → Option (List Byte)
  deflate : List Byte → Option (List Byte)

/-- The engine hypothesis of rule R89: every payload is compressed, and decompressed to itself. -/
def inverseEngine (g : Engine) : Prop :=
  ∀ p, ∃ body, g.deflate p = some body ∧ g.inflate body = some p

/-- The byte at a position; 0 beyond the end, where rule R91 lets the host send any value and names 0 the convention. -/
def byteAt (e : List Byte) (k : Nat) : Byte := e.getD k 0

/-- The compressed body `e[2, n-4)` (rule R31). -/
def bodyOf (e : List Byte) : List Byte := (e.take (e.length - trlLen)).drop hdrLen

/-- The header value `(e[0] << 8) | e[1]` (rule R34). -/
def headerOf (e : List Byte) : Half := joinBytes (byteAt e 0) (byteAt e 1)

/-- The trailer value, big-endian from the last four bytes (rule R35). -/
def trailerOf (e : List Byte) : Word :=
  let n := e.length
  joinTrailer (byteAt e (n - 4)) (byteAt e (n - 3)) (byteAt e (n - 2)) (byteAt e (n - 1))

/-- An envelope from its three regions (rules R31, R35, R86, R88). -/
def frame (h : Half) (body : List Byte) (c : Word) : List Byte := halfBytes h ++ body ++ trailerBytes c

/-- `decode(e)` of rule R87: the payload or one fault. -/
def decodeEnvelope (g : Engine) (e : List Byte) : Except Status (List Byte) :=
  let verdict := hdrCheck e.length (headerOf e)
  if verdict ≠ .ok then .error verdict
  else match g.inflate (bodyOf e) with
    | none => .error .inflateFailure
    | some p =>
      if trlCheck (trailerOf e) (checksum p) ≠ .ok then .error .payloadChecksumMismatch else .ok p

/-- `encode(p)` of rule R88: the envelope, or `DeflateFailure`. -/
def encodeEnvelope (g : Engine) (p : List Byte) : Except Status (List Byte) :=
  match g.deflate p with
  | none => .error .deflateFailure
  | some body => .ok (frame (emittedHeader Config.flgConst) body (checksum p))

/-- `convert(e) = encode(swap(decode(e)))` (rules R89, R173). -/
def convert (g : Engine) (e : List Byte) : Except Status (List Byte) :=
  match decodeEnvelope g e with
  | .error f => .error f
  | .ok p =>
    match swapPayload p with
    | .error f => .error f
    | .ok q => encodeEnvelope g q

end Sys2Proof.Machine
end

