-- ==== Sys2Proof/Machine/Sequence.lean ====
section
/-! DEFINITION. A run as a list of the host's events folded through the block (rule R18), the responses it returns in order,
and the outcomes of the conversions in it (rules R173, R174). -/

namespace Sys2Proof.Machine

/-- Go on from a next state; a stop stays a stop. -/
def andThen {α β : Type} (o : Host.Outcome α Fault Refusal) (f : α → Host.Outcome β Fault Refusal) :
    Host.Outcome β Fault Refusal :=
  match o with
  | .next x => f x
  | .fault r => .fault r
  | .refused r => .refused r

/-- The events one after another: the last state and every response in order (rules R18, R42). -/
def collect : List HostEvent → State → Host.Outcome (State × List Response) Fault Refusal
  | [], s => .next (s, [])
  | e :: es, s =>
    andThen (present e s) fun t =>
      andThen (collect es t) fun r => .next (r.1, t.rsp.toList ++ r.2)

/-- The host presents these commands, each as its command word (rule R50). -/
def submit (is : List Instr) : List HostEvent := is.map fun i => .command (encode i)

/-- A conversion starts with a BEGIN, and none goes on over a reset (rule R173). -/
def endsConversion : HostEvent → Bool
  | .reset => true
  | .command w => decode w == some .begin

/-- The outcomes of the conversions, oldest first: STATUS after the last command of each (rules R173, R174). `live` says
whether a conversion is going on. -/
def outcomesFrom : Bool → List HostEvent → State → Host.Outcome (List Status) Fault Refusal
  | live, [], s => .next (if live then [s.status] else [])
  | live, e :: es, s =>
    andThen (present e s) fun t =>
      andThen (outcomesFrom (e != .reset) es t) fun r =>
        .next (if live && endsConversion e then s.status :: r else r)

/-- The outcomes of the conversions of a run that starts after reset (rules R173, R174). -/
def outcomes (es : List HostEvent) : Host.Outcome (List Status) Fault Refusal :=
  outcomesFrom false es State.reset

end Sys2Proof.Machine
end

