-- ==== Sys2Proof/Machine/HostProcedures.lean ====
section
/-! DEFINITION. How a host performs decode, swap and encode with the block's commands and the external engine (rules R94,
R126, R173), the duties of rule R175 kept. Each procedure answers the state it leaves and the payload, the bytes or the
fault; it refuses an envelope or payload of 2^32 bytes or more (decision D22, duty H13). Log entry 13. -/

namespace Sys2Proof.Machine

/-- What the host keeps: its result if STATUS is still 0, else the fault (rules R94, R160; duty H12). -/
def verdictOf {α : Type} (s : State) (r : α) : Except Status α :=
  if faulted s then .error s.status else .ok r

/-- Go on with what a length can be declared for, refuse the rest (decision D22, duty H13). -/
def orRefuse {α β : Type} (o : Option α) (f : α → Host.Outcome β Fault Refusal) : Host.Outcome β Fault Refusal :=
  match o with
  | none => .refused .undeclarableLength
  | some x => f x

/-- Report an engine failure with ENGF (rules R94, R74; duty H8). -/
def reportEngine {α : Type} (sel : BitVec 1) (r : α) (s : State) :
    Host.Outcome (State × Except Status α) Fault Refusal :=
  andThen (collect (submit [.engf sel]) s) fun t => .next (t.1, verdictOf t.1 r)

/-- Decode of an envelope: BEGIN, HLEN, HCHK; the engine; then AINIT, the AUPDs and TCMP (rule R94; duties H1 to H8,
H13). -/
def hostDecode (g : Engine) (e : List Byte) (s : State) :
    Host.Outcome (State × Except Status (List Byte)) Fault Refusal :=
  orRefuse (lengthOperand e) fun n =>
    andThen (collect (submit [.begin, .hlen n, .hchk (headerOf e)]) s) fun t =>
      if faulted t.1 then .next (t.1, .error t.1.status)
      else match g.inflate (bodyOf e) with
        | none => reportEngine 0 [] t.1
        | some p =>
          orRefuse (lengthOperand p) fun _ =>
            andThen (collect (submit (.ainit :: (feed p ++ [.tcmp (trailerOf e)]))) t.1) fun u =>
              .next (u.1, verdictOf u.1 p)

/-- Swap of a payload: SLEN, one SWAP per group, the bytes of every SWAP's datum high byte first (rule R126; duties H9,
H13). -/
def hostSwap (p : List Byte) (s : State) : Host.Outcome (State × Except Status (List Byte)) Fault Refusal :=
  orRefuse (swapSeq p) fun is =>
    andThen (collect (submit is) s) fun t =>
      .next (t.1, verdictOf t.1 ((t.2.drop 1).flatMap fun r => halfBytes (lowHalf r.data)))

/-- The datum of a response, 0 where there is none. -/
def dataOf (r : Option Response) : Word := (r.map Response.data).getD 0

/-- Encode of a payload: the engine, HEMIT for the header, CKSUM for the trailer (rule R94; duties H3, H4, H10,
H11, H13). -/
def hostEncode (g : Engine) (q : List Byte) (s : State) :
    Host.Outcome (State × Except Status (List Byte)) Fault Refusal :=
  orRefuse (lengthOperand q) fun _ =>
    match g.deflate q with
    | none => reportEngine 1 [] s
    | some body =>
      andThen (collect (submit (.hemit :: cksum q)) s) fun t =>
        .next (t.1, verdictOf t.1 (frame (lowHalf (dataOf t.2.head?)) body (dataOf t.2.getLast?)))

/-- A later part of a conversion, done only if the part before gave a result (rules R94, R160). -/
def continueWith (o : Host.Outcome (State × Except Status (List Byte)) Fault Refusal)
    (f : List Byte → State → Host.Outcome (State × Except Status (List Byte)) Fault Refusal) :
    Host.Outcome (State × Except Status (List Byte)) Fault Refusal :=
  andThen o fun t =>
    match t.2 with
    | .error st => .next (t.1, .error st)
    | .ok p => f p t.1

/-- The canonical conversion: decode, swap, encode (rule R173). -/
def hostConvert (g : Engine) (e : List Byte) (s : State) :
    Host.Outcome (State × Except Status (List Byte)) Fault Refusal :=
  continueWith (continueWith (hostDecode g e s) hostSwap) (hostEncode g)

end Sys2Proof.Machine
end

