-- ==== Sys2Proof/Machine/Instances.lean ====
section
/-! DEFINITION. The `N_INST` instances of rule R158: each has its own state and its own command and response streams, and
they share only `FLG_CONST`, a constant. Log entry 7. -/

namespace Sys2Proof.Machine

/-- The states of all instances. -/
structure System where
  insts : List State
  deriving DecidableEq, Repr

/-- Every instance after its own reset (rule R158). -/
def systemReset : System := { insts := List.replicate Config.nInst State.reset }

/-- Instance `k` makes one step, the others none; there is nothing to do for an instance that does not exist
(rule R158). -/
def stepInstance (k : Nat) (y : System) : Host.Outcome System Fault Refusal :=
  match y.insts[k]? with
  | none => .next y
  | some s =>
    match step s with
    | .next t => .next { y with insts := y.insts.set k t }
    | .fault r => .fault r
    | .refused r => .refused r

end Sys2Proof.Machine
end

