-- ==== Sys2Proof/Safety.lean ====
section
/-! DEFINITION. What claims call a good state and a clean run. -/

namespace Sys2Proof.Machine

/-- The range invariant of rule R21. -/
def inRange (s : State) : Prop := s.a.toNat < modulus ∧ s.b.toNat < modulus

/-- A response shows STATUS as the command left it, and a faulted block gives no datum but STAT's (rules R55, R70 (a)). -/
def honestResponse (s : State) : Prop :=
  ∀ r, s.rsp = some r →
    r.status = s.status ∧ (s.status ≠ .ok → r.data = 0 ∨ r.data = statusData s.status)

/-- The invariant of every reachable state. -/
def Invariant (s : State) : Prop := inRange s ∧ honestResponse s

/-- No event of the list clears a fault: none is BEGIN or reset (rule R154). -/
def clearsNothing (es : List HostEvent) : Prop := ∀ e ∈ es, endsConversion e = false

/-- The first fault among responses, `ok` if there is none (rule R153). -/
def firstFault (rs : List Response) : Status :=
  ((rs.map Response.status).find? (· != .ok)).getD .ok

/-- The ten commands that a faulted block ignores (rule R70 (a)): all but NOP, BEGIN and STAT. -/
def isGated : Instr → Bool
  | .nop => false
  | .begin => false
  | .stat => false
  | .engf _ => true
  | .hlen _ => true
  | .hchk _ => true
  | .tcmp _ => true
  | .hemit => true
  | .ainit => true
  | .aupd _ => true
  | .ard => true
  | .slen _ => true
  | .swap _ => true

end Sys2Proof.Machine
end

