-- ==== Sys2Proof/Certificates/Slice0/Obligations.lean ====
section
/-! DEFINITION. The statements for the provers, from the numbered rules of spec/. In each, a state written with `with` says
the whole next state: every field not named keeps its value, so it is the command's frame too. -/

open Sys2Proof Sys2Proof.Machine

/-! ## The machine: reset, the port, legality -/

/-- Rule R171: reset sets the four registers to (1, 0, 0, 0) whatever they were, gives no response, and has the effect of
BEGIN on the registers. No register is left unspecified. That reset takes a step of its own, and is taken from `inbox`, is
the model's reading: log entries 4 and 1. -/
def Obligations.ResetGivesStartState : Prop :=
  (∀ s rest, s.inbox = .reset :: rest →
    step s = .next { a := 1, b := 0, len := 0, status := .ok, rsp := none, inbox := rest }) ∧
  (State.reset.a = 1 ∧ State.reset.b = 0 ∧ State.reset.len = 0 ∧ State.reset.status = .ok) ∧
  (∀ s t u, present .reset s = .next t → exec .begin s = .next u →
    t.a = u.a ∧ t.b = u.b ∧ t.len = u.len ∧ t.status = u.status)

/-- Rule R10: with no command presented, no register changes. That the idle step gives no response is the model's choice
(log entry 3). -/
def Obligations.NothingPresentedNothingChanges : Prop :=
  ∀ s, s.inbox = [] → step s = .next { s with rsp := none }

/-- Rule R70: when the word presented next is legal, the step is the decoded command's effect on the state from which that
word has been taken. -/
def Obligations.StepRunsPresentedCommand : Prop :=
  ∀ s w rest i, s.inbox = .command w :: rest → decode w = some i → step s = exec i { s with inbox := rest }

/-- Rules R54, R70, R151: a word that no row of the opcode table matches raises `IllegalCommand` if no fault is recorded,
keeps the recorded fault if one is, writes no other register, and returns data 0. -/
def Obligations.IllegalWordRaisesIllegalCommand : Prop :=
  ∀ s w rest, s.inbox = .command w :: rest → legal w = false →
    step s = .next { s with
      status := if s.status = .ok then .illegalCommand else s.status
      rsp := some ⟨if s.status = .ok then .illegalCommand else s.status, 0⟩
      inbox := rest }

/-- Rule R54: the decoder gives a command exactly for the words that a row of the table matches, and these are exactly the
words with a defined `op` and no reserved bit set. -/
def Obligations.DecoderAcceptsExactlyLegalWords : Prop :=
  ∀ w, (decode w).isSome = legal w ∧ legal w = wellFormed w

/-- spec/opcode_table.json: no word matches two rows. -/
def Obligations.OpcodeRowsAreDisjoint : Prop :=
  ∀ w r r', r ∈ opcodeTable → r' ∈ opcodeTable →
    w &&& r.mask = r.pattern → w &&& r'.mask = r'.pattern → r = r'

/-- Words written out from rules R50 to R52, at least one of each family, stand for the commands the spec names. -/
def Obligations.SampleWordsDecode : Prop :=
  decode 0x0000000000 = some .nop ∧ decode 0x0100000000 = some .begin ∧ decode 0x0300000001 = some (.engf 1) ∧
  decode 0x100000000D = some (.hlen 13) ∧ decode 0x110000789C = some (.hchk 0x789C) ∧
  decode 0x120018000B = some (.tcmp 0x0018000B) ∧ decode 0x21000000FF = some (.aupd 0xFF) ∧
  decode 0x2200000000 = some .ard ∧ decode 0x3000000004 = some (.slen 4) ∧ decode 0x3100000102 = some (.swap 0x0102) ∧
  decode 0x0100000001 = none ∧ decode 0x2100000100 = none ∧ decode 0x0400000000 = none

/-- Rules R50 to R53: the word of any command, with any operand, decodes to that command. -/
def Obligations.EncodeThenDecodeIsIdentity : Prop :=
  ∀ i, decode (encode i) = some i

/-- Rules R50 to R54: a legal word is the word of the command it decodes to, so every bit of it is accounted for. -/
def Obligations.DecodeThenEncodeIsIdentity : Prop :=
  ∀ w i, decode w = some i → encode i = w

/-! ## The thirteen commands -/

/-- Rule R71. -/
def Obligations.NopCommand : Prop :=
  encode .nop = 0x0000000000 ∧ decode 0x0000000000 = some .nop ∧
  ∀ s, exec .nop s = .next { s with rsp := some ⟨s.status, 0⟩ }

/-- Rule R72: the start state whatever the state was, so nothing an earlier command did is visible after it; and BEGIN is
the only command that clears a fault. -/
def Obligations.BeginCommand : Prop :=
  encode .begin = 0x0100000000 ∧ decode 0x0100000000 = some .begin ∧
  (∀ s, exec .begin s = .next { a := 1, b := 0, len := 0, status := .ok, rsp := some ⟨.ok, 0⟩, inbox := s.inbox }) ∧
  (∀ i s t, exec i s = .next t → s.status ≠ .ok → t.status = .ok → i = .begin)

/-- Rule R73: the code stands in both fields of the response, faulted or not. -/
def Obligations.StatCommand : Prop :=
  encode .stat = 0x0200000000 ∧ decode 0x0200000000 = some .stat ∧
  ∀ s, exec .stat s = .next { s with rsp := some ⟨s.status, s.status.code.setWidth 32⟩ }

/-- Rule R74: the fault that `sel` chooses is recorded; an earlier fault stays. -/
def Obligations.EngfCommand : Prop :=
  encode (.engf 0) = 0x0300000000 ∧ encode (.engf 1) = 0x0300000001 ∧
  (∀ s, s.status = .ok → exec (.engf 0) s = .next { s with status := .inflateFailure, rsp := some ⟨.inflateFailure, 0⟩ }) ∧
  (∀ s, s.status = .ok → exec (.engf 1) s = .next { s with status := .deflateFailure, rsp := some ⟨.deflateFailure, 0⟩ }) ∧
  (∀ sel s, s.status ≠ .ok → exec (.engf sel) s = .next { s with rsp := some ⟨s.status, 0⟩ })

/-- Rule R90: every length is accepted and overwrites LEN. -/
def Obligations.HlenCommand : Prop :=
  (∀ w, encode (.hlen w) = 0x10#8 ++ w) ∧
  (∀ w s, s.status = .ok → exec (.hlen w) s = .next { s with len := w, rsp := some ⟨.ok, 0⟩ })

/-- Rule R91: the first failing test in the order of the rule is recorded, in the rule's own bit fields; a header that
passes leaves every register; HCHK with LEN = 0 gives `MalformedContainer` whatever the header; faulted, it is ignored. -/
def Obligations.HchkCommand : Prop :=
  (∀ h, encode (.hchk h) = 0x11#8 ++ 0#16 ++ h) ∧
  (∀ h s, s.status = .ok → 6 ≤ s.len.toNat → h.extractLsb' 8 4 = 8#4 → h.extractLsb' 12 4 = 7#4 → h.getLsbD 5 = false →
    h.toNat % 31 = 0 → exec (.hchk h) s = .next { s with rsp := some ⟨.ok, 0⟩ }) ∧
  (∀ h s, s.status = .ok → s.len.toNat < 6 →
    exec (.hchk h) s = .next { s with status := .malformedContainer, rsp := some ⟨.malformedContainer, 0⟩ }) ∧
  (∀ h s, s.status = .ok → 6 ≤ s.len.toNat → h.extractLsb' 8 4 ≠ 8#4 →
    exec (.hchk h) s = .next { s with status := .unsupportedMethod, rsp := some ⟨.unsupportedMethod, 0⟩ }) ∧
  (∀ h s, s.status = .ok → 6 ≤ s.len.toNat → h.extractLsb' 8 4 = 8#4 → h.extractLsb' 12 4 ≠ 7#4 →
    exec (.hchk h) s = .next { s with status := .unsupportedWindowSize, rsp := some ⟨.unsupportedWindowSize, 0⟩ }) ∧
  (∀ h s, s.status = .ok → 6 ≤ s.len.toNat → h.extractLsb' 8 4 = 8#4 → h.extractLsb' 12 4 = 7#4 → h.getLsbD 5 = true →
    exec (.hchk h) s = .next { s with status := .unsupportedFeature, rsp := some ⟨.unsupportedFeature, 0⟩ }) ∧
  (∀ h s, s.status = .ok → 6 ≤ s.len.toNat → h.extractLsb' 8 4 = 8#4 → h.extractLsb' 12 4 = 7#4 → h.getLsbD 5 = false →
    h.toNat % 31 ≠ 0 →
    exec (.hchk h) s = .next { s with status := .headerChecksumMismatch, rsp := some ⟨.headerChecksumMismatch, 0⟩ }) ∧
  (∀ h s, s.status ≠ .ok → exec (.hchk h) s = .next { s with rsp := some ⟨s.status, 0⟩ })

/-- Rule R92: all 32 bits of the operand against `B * 65536 + A`; A and B are unchanged either way. The number is the
rule's `(B << 16) | A`. -/
def Obligations.TcmpCommand : Prop :=
  (∀ w, encode (.tcmp w) = 0x12#8 ++ w) ∧
  (∀ w s, s.status = .ok → w.toNat = s.b.toNat * 65536 + s.a.toNat →
    exec (.tcmp w) s = .next { s with rsp := some ⟨.ok, 0⟩ }) ∧
  (∀ w s, s.status = .ok → w.toNat ≠ s.b.toNat * 65536 + s.a.toNat →
    exec (.tcmp w) s = .next { s with status := .payloadChecksumMismatch, rsp := some ⟨.payloadChecksumMismatch, 0⟩ })

/-- Rule R93: the datum is `0x7800 | FLG_CONST`, one of four values, whatever the registers; every such value passes HCHK
when LEN is at least 6; faulted, the datum is 0. -/
def Obligations.HemitCommand : Prop :=
  encode .hemit = 0x1300000000 ∧
  (∀ s, s.status = .ok →
    exec .hemit s = .next { s with rsp := some ⟨.ok, 0x00007800 ||| (flgByte Config.flgConst).setWidth 32⟩ }) ∧
  ((0x00007800 ||| (flgByte Config.flgConst).setWidth 32 : Word) ∈
    [0x00007801, 0x0000785E, 0x0000789C, (0x000078DA : Word)]) ∧
  (∀ s t r, s.status = .ok → 6 ≤ s.len.toNat → exec .hemit s = .next t → t.rsp = some r →
    exec (.hchk (r.data.setWidth 16)) t = .next { t with rsp := some ⟨.ok, 0⟩ }) ∧
  (∀ s, s.status ≠ .ok → exec .hemit s = .next { s with rsp := some ⟨s.status, 0⟩ })

/-- Rule R106: A and B to (1, 0), LEN and STATUS untouched; faulted, A and B keep their values. -/
def Obligations.AinitCommand : Prop :=
  encode .ainit = 0x2000000000 ∧
  (∀ s, s.status = .ok → exec .ainit s = .next { s with a := 1, b := 0, rsp := some ⟨.ok, 0⟩ }) ∧
  (∀ s, s.status ≠ .ok → exec .ainit s = .next { s with rsp := some ⟨s.status, 0⟩ })

/-- Rule R107: one byte folded in, sums in the natural numbers, B from the new A; a word with any of `arg[31:8]` set is no
AUPD but illegal; faulted, it is ignored. -/
def Obligations.AupdCommand : Prop :=
  (∀ d, encode (.aupd d) = 0x21#8 ++ 0#24 ++ d) ∧
  (∀ d s, s.status = .ok → exec (.aupd d) s = .next { s with
    a := BitVec.ofNat 16 ((s.a.toNat + d.toNat) % 65521)
    b := BitVec.ofNat 16 ((s.b.toNat + (s.a.toNat + d.toNat) % 65521) % 65521)
    rsp := some ⟨.ok, 0⟩ }) ∧
  (∀ arg : Word, arg >>> 8 ≠ 0 → decode (0x21#8 ++ arg) = none) ∧
  (∀ d s, s.status ≠ .ok → exec (.aupd d) s = .next { s with rsp := some ⟨s.status, 0⟩ })

/-- Rule R108: B in the upper and A in the lower half of the datum; nothing is written; faulted, the datum is 0. -/
def Obligations.ArdCommand : Prop :=
  encode .ard = 0x2200000000 ∧
  (∀ s, s.status = .ok → exec .ard s = .next { s with rsp := some ⟨.ok, s.b ++ s.a⟩ }) ∧
  (∀ s, s.status ≠ .ok → exec .ard s = .next { s with rsp := some ⟨s.status, 0⟩ })

/-- Rule R124: an odd length raises `InvalidPayloadLength`, an even one passes; the length is not stored;
every SWAP after the fault returns data 0. -/
def Obligations.SlenCommand : Prop :=
  (∀ w, encode (.slen w) = 0x30#8 ++ w) ∧
  (∀ w s, s.status = .ok → w.toNat % 2 = 0 → exec (.slen w) s = .next { s with rsp := some ⟨.ok, 0⟩ }) ∧
  (∀ w s, s.status = .ok → w.toNat % 2 = 1 →
    exec (.slen w) s = .next { s with status := .invalidPayloadLength, rsp := some ⟨.invalidPayloadLength, 0⟩ }) ∧
  (∀ w h s t, s.status = .ok → w.toNat % 2 = 1 → exec (.slen w) s = .next t →
    exec (.swap h) t = .next { t with rsp := some ⟨.invalidPayloadLength, 0⟩ })

/-- Rule R125: the datum is the operand with its two bytes exchanged, zero-extended; no register is written, and a SWAP on
that output gives the operand back; faulted, the datum is 0. -/
def Obligations.SwapCommand : Prop :=
  (∀ h, encode (.swap h) = 0x31#8 ++ 0#16 ++ h) ∧
  (∀ (x y : Byte) s, s.status = .ok → exec (.swap (x ++ y)) s = .next { s with rsp := some ⟨.ok, 0#16 ++ (y ++ x : Half)⟩ }) ∧
  (∀ h s t r, s.status = .ok → exec (.swap h) s = .next t → t.rsp = some r →
    exec (.swap (r.data.setWidth 16)) t = .next { t with rsp := some ⟨.ok, h.setWidth 32⟩ }) ∧
  (∀ h s, s.status ≠ .ok → exec (.swap h) s = .next { s with rsp := some ⟨s.status, 0⟩ })

/-! ## Rules about every command -/

/-- Rule R70 (a): a faulted block ignores the ten commands and returns data 0; the three others are NOP, BEGIN, STAT. -/
def Obligations.FaultedBlockIgnoresTheTen : Prop :=
  (∀ i s, isGated i = true → s.status ≠ .ok → exec i s = .next { s with rsp := some ⟨s.status, 0⟩ }) ∧
  (∀ i, isGated i = false ↔ i = .nop ∨ i = .begin ∨ i = .stat)

/-- 10_state.md's table of writers (rules R14 to R17), for every command at once: each register keeps its value except
under the commands that table names, and what the host will present is never touched. -/
def Obligations.RegistersHaveOnlyTheirWriters : Prop :=
  ∀ i s t, exec i s = .next t →
    ((t.a = s.a ∧ t.b = s.b) ∨ i = .begin ∨ i = .ainit ∨ ∃ d, i = .aupd d) ∧
    (t.len = s.len ∨ i = .begin ∨ ∃ w, i = .hlen w) ∧
    (t.status = s.status ∨ i = .begin ∨
      (s.status = .ok ∧ ((∃ x, i = .engf x) ∨ (∃ h, i = .hchk h) ∨ (∃ w, i = .tcmp w) ∨ (∃ w, i = .slen w)))) ∧
    t.inbox = s.inbox

/-- Rule R152: a command word that records a fault writes no register but STATUS and returns data 0. -/
def Obligations.RaisingWritesOnlyStatus : Prop :=
  ∀ s w rest t, s.inbox = .command w :: rest → s.status = .ok → step s = .next t → t.status ≠ .ok →
    t = { s with status := t.status, rsp := some ⟨t.status, 0⟩, inbox := rest }

/-- Rules R17, R154: a recorded fault stays, whatever is presented, until BEGIN or reset; and each of these clears it
together with A, B and LEN. Told apart by what the step takes: reset or BEGIN's word, or anything else or nothing. -/
def Obligations.OnlyBeginOrResetClearsAFault : Prop :=
  ∀ s, s.status ≠ .ok →
    (s.inbox.head? = some .reset ∨ s.inbox.head? = some (.command 0x0100000000) →
      ∃ t, step s = .next t ∧ t.status = .ok ∧ t.a = 1 ∧ t.b = 0 ∧ t.len = 0) ∧
    (s.inbox.head? ≠ some .reset → s.inbox.head? ≠ some (.command 0x0100000000) →
      ∃ t, step s = .next t ∧ t.status = s.status ∧ t.a = s.a ∧ t.b = s.b ∧ t.len = s.len)

/-- Rules R21, R55: every step keeps both accumulators below 65521, and a response shows STATUS as the command left it,
with no datum but STAT's once a fault is recorded. From every state that meets the invariant, reachable or not. -/
def Obligations.EveryStepKeepsInvariant : Prop :=
  ∀ s t, Invariant s → step s = .next t → Invariant t

/-- The state after reset meets the invariant (rules R20, R21). -/
def Obligations.ResetMeetsInvariant : Prop :=
  Invariant State.reset

/-- Rules R10, R178: from every state every step has an outcome that is a next state: no command stops, blocks or hangs. -/
def Obligations.EveryStepCompletes : Prop :=
  ∀ s, ∃ t, step s = .next t ∧ t.inbox = s.inbox.tail

/-- Rule R55: every presented word is answered, with STATUS as the command leaves it; and once a fault is recorded the
datum is 0 unless the word is STAT, whose datum is the code. -/
def Obligations.EveryCommandIsAnswered : Prop :=
  ∀ s w rest, s.inbox = .command w :: rest → ∃ t r, step s = .next t ∧ t.rsp = some r ∧ r.status = t.status ∧
    (t.status ≠ .ok → w ≠ 0x0200000000 → r.data = 0) ∧
    (w = 0x0200000000 → r.data = t.status.code.setWidth 32) ∧
    r.word.extractLsb' 32 4 = t.status.code ∧ r.word.extractLsb' 0 32 = r.data

/-- Rule R40: NOP, STAT, ARD, HEMIT, SWAP, and SLEN with an even operand write no register, and repeating one gives the same
response and the same state. -/
def Obligations.ReadOnlyCommandsRepeat : Prop :=
  ∀ i, (i = .nop ∨ i = .stat ∨ i = .ard ∨ i = .hemit ∨ (∃ h, i = .swap h) ∨ (∃ w : Word, i = .slen w ∧ w.toNat % 2 = 0)) →
    ∀ s, ∃ r, exec i s = .next { s with rsp := some r } ∧
      exec i { s with rsp := some r } = .next { s with rsp := some r }

/-! ## The header check -/

/-- Rule R82: `hdr_check` accepts exactly four header values, for lengths of at least 6; the rest of the rule's
classification by flag byte. The rule's counts are not part of this statement. -/
def Obligations.AcceptedHeadersAreFour : Prop :=
  (∀ n h, hdrCheck n h = .ok ↔ 6 ≤ n ∧ (h = 0x7801 ∨ h = 0x785E ∨ h = 0x789C ∨ h = 0x78DA)) ∧
  (∀ n (flg : Byte), 6 ≤ n → (hdrCheck n (0x78#8 ++ flg) = .unsupportedFeature ↔ flg.getLsbD 5 = true)) ∧
  (∀ n (flg : Byte), 6 ≤ n → (hdrCheck n (0x78#8 ++ flg) = .headerChecksumMismatch ↔
    flg.getLsbD 5 = false ∧ flg ≠ 0x01 ∧ flg ≠ 0x5E ∧ flg ≠ 0x9C ∧ flg ≠ 0xDA))

/-- Rules R143 to R146: the exact condition of each header fault, as the rules word it, on the state HCHK leaves. -/
def Obligations.HeaderFaultConditions : Prop :=
  ∀ s t h, s.status = .ok → exec (.hchk h) s = .next t →
    (t.status = .malformedContainer ↔ s.len.toNat < 6) ∧
    (t.status = .unsupportedMethod ↔ 6 ≤ s.len.toNat ∧ h.extractLsb' 8 4 ≠ 8#4) ∧
    (t.status = .unsupportedWindowSize ↔ 6 ≤ s.len.toNat ∧ h.extractLsb' 8 4 = 8#4 ∧ h.extractLsb' 12 4 ≠ 7#4) ∧
    (t.status = .unsupportedFeature ↔ 6 ≤ s.len.toNat ∧ h.extractLsb' 8 8 = 0x78#8 ∧ h.getLsbD 5 = true) ∧
    (t.status = .headerChecksumMismatch ↔
      6 ≤ s.len.toNat ∧ h.extractLsb' 8 8 = 0x78#8 ∧ h.getLsbD 5 = false ∧ h.toNat % 31 ≠ 0)

/-! ## The checksum -/

/-- Rules R102, R103: 17-bit adders with one conditional subtraction each compute the accumulator step, on the range of
rule R21. -/
def Obligations.DatapathComputesAccumulatorStep : Prop :=
  ∀ (a b : Half) (d : Byte), a.toNat ≤ 65520 → b.toNat ≤ 65520 → adlStepDatapath (a, b) d = adlStep (a, b) d

/-- Rule R104: the two halves do not overlap, each is at most 0xFFF0 in any checksum, and the empty sequence gives 1. -/
def Obligations.ChecksumPacking : Prop :=
  (∀ a b : Half, (pack a b).toNat = b.toNat * 65536 + a.toNat) ∧
  (∀ data, ((checksum data).extractLsb' 0 16).toNat ≤ 0xFFF0 ∧ ((checksum data).extractLsb' 16 16).toNat ≤ 0xFFF0) ∧
  checksum [] = 0x00000001

/-- Rule R109: from any state without a fault, CKSUM over any byte sequence leaves its running values in A and B, keeps LEN
and STATUS, and its last response carries the checksum. -/
def Obligations.CksumComputesChecksum : Prop :=
  ∀ data s, s.status = .ok → ∃ t rs, collect (submit (cksum data)) s = .next (t, rs) ∧
    t.a = (data.foldl adlStep (1, 0)).1 ∧ t.b = (data.foldl adlStep (1, 0)).2 ∧
    t.len = s.len ∧ t.status = .ok ∧ rs.getLast? = some ⟨.ok, checksum data⟩ ∧ rs.length = data.length + 2

/-- Rules R105, R109: commands that do not write A or B may be interleaved freely: after any commands among which there is
no BEGIN and no AINIT and after which no fault is recorded, A and B are the fold of exactly the AUPD bytes, in order. -/
def Obligations.InterleavedCommandsKeepAccumulation : Prop :=
  ∀ (is : List Instr) s t rs, .begin ∉ is → .ainit ∉ is →
    collect (submit is) s = .next (t, rs) → t.status = .ok →
    (t.a, t.b) = (is.filterMap fun | .aupd d => some d | _ => none).foldl adlStep (s.a, s.b)

/-! ## The swap -/

/-- Rules R120, R123: on an even length every pair is exchanged in place and the length is kept; an odd length gives no
output. -/
def Obligations.SwapExchangesEveryPair : Prop :=
  (∀ p : List Byte, p.length % 2 = 0 → ∃ q, swapPayload p = .ok q ∧ q.length = p.length ∧
    ∀ k, 2 * k + 1 < p.length → q[2 * k]? = p[2 * k + 1]? ∧ q[2 * k + 1]? = p[2 * k]?) ∧
  (∀ p : List Byte, p.length % 2 = 1 → swapPayload p = .error .invalidPayloadLength)

/-- Rule R122: swapping twice gives the input back; it is not idempotent: a swapped payload is a fixed point exactly when
every pair has two equal bytes. -/
def Obligations.SwapIsAnInvolution : Prop :=
  (∀ p q : List Byte, swapPayload p = .ok q → swapPayload q = .ok p) ∧
  (∀ h, swapPair (swapPair h) = h) ∧
  (∀ p q : List Byte, swapPayload p = .ok q →
    (swapPayload q = .ok q ↔ ∀ k, 2 * k + 1 < p.length → p[2 * k]? = p[2 * k + 1]?)) ∧
  (∀ x y : Byte, swapPair (x ++ y) = x ++ y ↔ x = y)

/-- Rule R121: `swap_pair` is the exchange of the two bytes and a rotation by 8, and it is what the swap does to every
group. -/
def Obligations.PairFunctionIsRotation : Prop :=
  (∀ x y : Byte, swapPair (x ++ y) = y ++ x) ∧ (∀ h, swapPair h = h.rotateLeft 8) ∧
  (∀ (x y : Byte) (p : List Byte), swapPairs (x :: y :: p) = halfBytes (swapPair (x ++ y)) ++ swapPairs p)

/-- Rule R126: SWAPSEQ over a payload of even length raises no fault, changes no register, and its SWAP data are the swapped
payload; over an odd length every response is {8, 0} and only STATUS changes. A length of 2^32 or more cannot be declared and gives no sequence (rule R124, decision D22). -/
def Obligations.SwapSequenceComputesSwap : Prop :=
  (∀ p s, s.status = .ok → p.length < 2 ^ 32 → p.length % 2 = 0 →
    ∃ is r rs, swapSeq p = some is ∧ collect (submit is) s = .next ({ s with rsp := some r }, rs) ∧
      (∀ x ∈ rs, x.status = .ok) ∧ (rs.drop 1).length = p.length / 2 ∧
      (rs.drop 1).flatMap (fun x => halfBytes (x.data.extractLsb' 0 16)) = swapPairs p) ∧
  (∀ p s, s.status = .ok → p.length < 2 ^ 32 → p.length % 2 = 1 →
    ∃ is rs, swapSeq p = some is ∧ collect (submit is) s =
        .next ({ s with status := .invalidPayloadLength, rsp := some ⟨.invalidPayloadLength, 0⟩ }, rs) ∧
      ∀ x ∈ rs, x = ⟨.invalidPayloadLength, 0⟩) ∧
  (∀ p, 2 ^ 32 ≤ p.length → swapSeq p = none)

/-! ## The envelope, and the host's procedures -/

/-- Rules R31, R34, R35, R86: the three regions of a framed envelope are read back as they were written. -/
def Obligations.EnvelopeRegionsReadBack : Prop :=
  (∀ h body c, headerOf (frame h body c) = h ∧ bodyOf (frame h body c) = body ∧ trailerOf (frame h body c) = c ∧
    (frame h body c).length = 6 + body.length) ∧
  (∀ e : List Byte, 6 ≤ e.length → frame (headerOf e) (bodyOf e) (trailerOf e) = e)

/-- Rule R89: with an engine that inverts itself, decoding an encoded payload gives the payload, of any length. -/
def Obligations.DecodeOfEncodeIsPayload : Prop :=
  ∀ g, inverseEngine g → ∀ p, ∃ e, encodeEnvelope g p = .ok e ∧ decodeEnvelope g e = .ok p

/-- Rules R87, R94: from every state, the commands of rule R94 with the engine compute `decode`: the payload, or the same
fault, which is then in STATUS; the host keeps duties H1 to H8. An envelope of 2^32 bytes or more, or one whose header passes
and whose payload is that long, is refused (decision D22, duty H13). -/
def Obligations.HostDecodeComputesDecode : Prop :=
  (∀ g e s, e.length < 2 ^ 32 →
    (∀ p, hdrCheck e.length (headerOf e) = .ok → g.inflate (bodyOf e) = some p → p.length < 2 ^ 32) →
    ∃ t, hostDecode g e s = .next (t, decodeEnvelope g e) ∧ t.inbox = s.inbox ∧
      (∀ p, decodeEnvelope g e = .ok p → t.status = .ok) ∧ (∀ f, decodeEnvelope g e = .error f → t.status = f)) ∧
  (∀ g e s, 2 ^ 32 ≤ e.length → hostDecode g e s = .refused .undeclarableLength) ∧
  (∀ g e s p, hdrCheck e.length (headerOf e) = .ok → g.inflate (bodyOf e) = some p → 2 ^ 32 ≤ p.length →
    hostDecode g e s = .refused .undeclarableLength)

/-- Rules R120, R126: from every state without a fault, the host's swap gives the swapped payload and changes no register, or
the fault of an odd length, which is then in STATUS. A payload of 2^32 bytes or more is refused (decision D22, duty H13). -/
def Obligations.HostSwapComputesSwap : Prop :=
  (∀ p s, s.status = .ok → p.length < 2 ^ 32 → ∃ t, hostSwap p s = .next (t, swapPayload p) ∧
    t.a = s.a ∧ t.b = s.b ∧ t.len = s.len ∧ t.inbox = s.inbox ∧
    (∀ q, swapPayload p = .ok q → t.status = .ok) ∧ (∀ f, swapPayload p = .error f → t.status = f)) ∧
  (∀ p s, 2 ^ 32 ≤ p.length → hostSwap p s = .refused .undeclarableLength)

/-- Rules R88, R94: from every state without a fault, the commands of rule R94 with the engine compute `encode`, whatever
`FLG_CONST` is. A payload of 2^32 bytes or more is refused (decision D22, duty H13). -/
def Obligations.HostEncodeComputesEncode : Prop :=
  (∀ g q s, s.status = .ok → q.length < 2 ^ 32 →
    ∃ t, hostEncode g q s = .next (t, encodeEnvelope g q) ∧ t.inbox = s.inbox ∧
      (∀ e, encodeEnvelope g q = .ok e → t.status = .ok) ∧ (∀ f, encodeEnvelope g q = .error f → t.status = f)) ∧
  (∀ g q s, 2 ^ 32 ≤ q.length → hostEncode g q s = .refused .undeclarableLength)

/-- Rules R89, R173: from every state, the canonical conversion computes `encode(swap(decode(e)))`: the new envelope or the
first fault. An envelope of 2^32 bytes or more, or one whose header passes and whose payload is that long, is refused
(decision D22, duty H13). -/
def Obligations.HostConversionComputesConvert : Prop :=
  (∀ g e s, e.length < 2 ^ 32 →
    (∀ p, hdrCheck e.length (headerOf e) = .ok → g.inflate (bodyOf e) = some p → p.length < 2 ^ 32) →
    ∃ t, hostConvert g e s = .next (t, convert g e) ∧ t.inbox = s.inbox ∧
      (∀ x, convert g e = .ok x → t.status = .ok) ∧ (∀ f, convert g e = .error f → t.status = f)) ∧
  (∀ g e s, 2 ^ 32 ≤ e.length → hostConvert g e s = .refused .undeclarableLength) ∧
  (∀ g e s p, hdrCheck e.length (headerOf e) = .ok → g.inflate (bodyOf e) = some p → 2 ^ 32 ≤ p.length →
    hostConvert g e s = .refused .undeclarableLength)

/-! ## Runs, conversions, instances -/

/-- Rules R18, R42: the machine's own steps over what the host has presented are the events folded in that order; what
comes after is untouched. -/
def Obligations.RunFoldsPresentedEvents : Prop :=
  ∀ es rest (s t : State) rs, collect es { s with inbox := rest } = .next (t, rs) →
    Host.Core.run core es.length ({ s with inbox := es ++ rest } : State) = .next t ∧ t.inbox = rest

/-- Rules R153, R154: over any events without BEGIN or reset, from a state without a fault, STATUS at the end is the first
fault that a response showed, or OK if none did. -/
def Obligations.FirstFaultIsTheOutcome : Prop :=
  ∀ es s t rs, clearsNothing es → s.status = .ok → collect es s = .next (t, rs) → t.status = firstFault rs

/-- Rules R173, R174: a conversion's outcome is STATUS after its last command, whether the next BEGIN, a reset or the end of
what the host presents ends it. What comes after a BEGIN or a reset starts from the start state, so its outcomes depend on
nothing before. The first command after reset starts a conversion, be it a BEGIN or not. -/
def Obligations.ConversionsHaveIndependentOutcomes : Prop :=
  (∀ es fs s t rs os, clearsNothing es → collect es s = .next (t, rs) →
    outcomesFrom true (.command 0x0100000000 :: fs) { State.reset with inbox := t.inbox } = .next (.ok :: os) →
    outcomesFrom true (es ++ .command 0x0100000000 :: fs) s = .next (t.status :: os)) ∧
  (∀ es fs s t rs os, clearsNothing es → collect es s = .next (t, rs) →
    outcomesFrom false fs { State.reset with inbox := t.inbox } = .next os →
    outcomesFrom true (es ++ .reset :: fs) s = .next (t.status :: os)) ∧
  (∀ es s t rs, clearsNothing es → collect es s = .next (t, rs) → outcomesFrom true es s = .next [t.status]) ∧
  (∀ w es t rs, clearsNothing es → collect (.command w :: es) State.reset = .next (t, rs) →
    outcomes (.command w :: es) = .next [t.status])

/-- Rule R158: a step of one instance changes no other, is that instance's own step, and steps of two instances may be made
in either order. There is at least one instance, and each starts in the start state. -/
def Obligations.InstancesShareNothing : Prop :=
  (∀ k y, ∃ z, stepInstance k y = .next z ∧ z.insts.length = y.insts.length ∧ (∀ j, j ≠ k → z.insts[j]? = y.insts[j]?) ∧
    (∀ s, y.insts[k]? = some s → ∃ t, step s = .next t ∧ z.insts[k]? = some t)) ∧
  (∀ j k y u v, j ≠ k → stepInstance j y = .next u → stepInstance k y = .next v →
    stepInstance k u = stepInstance j v) ∧
  (1 ≤ systemReset.insts.length ∧ ∀ s ∈ systemReset.insts, s = State.reset)

/-! ## The assembler -/

/-- Rule R57: the assembler gives every command its word, and never produces an illegal word but by the directive. -/
def Obligations.AssemblerAgreesWithEncoder : Prop :=
  (∀ i, assembleCommand (mnemonic i).toList (writtenOperands i) = some (encode i)) ∧
  (∀ name operands w, assembleCommand name operands = some w → legal w = true)
end

