-- ==== Sys2Proof/Laws/State.lean ====
section
/-! SUPPORT. Every field of the state after every register write: one lemma each, so that no proof unfolds a record update. -/

namespace Sys2Proof.Machine

@[simp] theorem State.setA_a (s : State) (v : Half) : (s.setA v).a = v := rfl
@[simp] theorem State.setA_b (s : State) (v : Half) : (s.setA v).b = s.b := rfl
@[simp] theorem State.setA_len (s : State) (v : Half) : (s.setA v).len = s.len := rfl
@[simp] theorem State.setA_status (s : State) (v : Half) : (s.setA v).status = s.status := rfl
@[simp] theorem State.setA_rsp (s : State) (v : Half) : (s.setA v).rsp = s.rsp := rfl
@[simp] theorem State.setA_inbox (s : State) (v : Half) : (s.setA v).inbox = s.inbox := rfl

@[simp] theorem State.setB_a (s : State) (v : Half) : (s.setB v).a = s.a := rfl
@[simp] theorem State.setB_b (s : State) (v : Half) : (s.setB v).b = v := rfl
@[simp] theorem State.setB_len (s : State) (v : Half) : (s.setB v).len = s.len := rfl
@[simp] theorem State.setB_status (s : State) (v : Half) : (s.setB v).status = s.status := rfl
@[simp] theorem State.setB_rsp (s : State) (v : Half) : (s.setB v).rsp = s.rsp := rfl
@[simp] theorem State.setB_inbox (s : State) (v : Half) : (s.setB v).inbox = s.inbox := rfl

@[simp] theorem State.setLen_a (s : State) (v : Word) : (s.setLen v).a = s.a := rfl
@[simp] theorem State.setLen_b (s : State) (v : Word) : (s.setLen v).b = s.b := rfl
@[simp] theorem State.setLen_len (s : State) (v : Word) : (s.setLen v).len = v := rfl
@[simp] theorem State.setLen_status (s : State) (v : Word) : (s.setLen v).status = s.status := rfl
@[simp] theorem State.setLen_rsp (s : State) (v : Word) : (s.setLen v).rsp = s.rsp := rfl
@[simp] theorem State.setLen_inbox (s : State) (v : Word) : (s.setLen v).inbox = s.inbox := rfl

@[simp] theorem State.setStatus_a (s : State) (v : Status) : (s.setStatus v).a = s.a := rfl
@[simp] theorem State.setStatus_b (s : State) (v : Status) : (s.setStatus v).b = s.b := rfl
@[simp] theorem State.setStatus_len (s : State) (v : Status) : (s.setStatus v).len = s.len := rfl
@[simp] theorem State.setStatus_status (s : State) (v : Status) : (s.setStatus v).status = v := rfl
@[simp] theorem State.setStatus_rsp (s : State) (v : Status) : (s.setStatus v).rsp = s.rsp := rfl
@[simp] theorem State.setStatus_inbox (s : State) (v : Status) : (s.setStatus v).inbox = s.inbox := rfl

@[simp] theorem State.setRsp_a (s : State) (v : Option Response) : (s.setRsp v).a = s.a := rfl
@[simp] theorem State.setRsp_b (s : State) (v : Option Response) : (s.setRsp v).b = s.b := rfl
@[simp] theorem State.setRsp_len (s : State) (v : Option Response) : (s.setRsp v).len = s.len := rfl
@[simp] theorem State.setRsp_status (s : State) (v : Option Response) : (s.setRsp v).status = s.status := rfl
@[simp] theorem State.setRsp_rsp (s : State) (v : Option Response) : (s.setRsp v).rsp = v := rfl
@[simp] theorem State.setRsp_inbox (s : State) (v : Option Response) : (s.setRsp v).inbox = s.inbox := rfl

@[simp] theorem State.setInbox_a (s : State) (v : List HostEvent) : (s.setInbox v).a = s.a := rfl
@[simp] theorem State.setInbox_b (s : State) (v : List HostEvent) : (s.setInbox v).b = s.b := rfl
@[simp] theorem State.setInbox_len (s : State) (v : List HostEvent) : (s.setInbox v).len = s.len := rfl
@[simp] theorem State.setInbox_status (s : State) (v : List HostEvent) : (s.setInbox v).status = s.status := rfl
@[simp] theorem State.setInbox_rsp (s : State) (v : List HostEvent) : (s.setInbox v).rsp = s.rsp := rfl
@[simp] theorem State.setInbox_inbox (s : State) (v : List HostEvent) : (s.setInbox v).inbox = v := rfl

end Sys2Proof.Machine
end

