-- ==== Sys2Proof/Laws/Ops.lean ====
section
/-! SUPPORT. What each shared operation does, once, in record form; proofs cite these and do not unfold the operations. -/

namespace Sys2Proof.Machine

/-- Two states with equal fields are equal. -/
theorem state_ext {s t : State} (ha : s.a = t.a) (hb : s.b = t.b) (hl : s.len = t.len) (hs : s.status = t.status)
    (hr : s.rsp = t.rsp) (hi : s.inbox = t.inbox) : s = t := by
  cases s
  cases t
  simp_all

theorem faulted_eq_false {s : State} : faulted s = false ↔ s.status = .ok := by
  simp [faulted]

theorem faulted_eq_true {s : State} : faulted s = true ↔ s.status ≠ .ok := by
  simp [faulted]

/-- Rule R7: a response writes nothing but the output. -/
theorem respond_eq (d : Word) (s : State) : respond d s = { s with rsp := some ⟨s.status, d⟩ } := rfl

@[simp] theorem respond_a (d : Word) (s : State) : (respond d s).a = s.a := rfl
@[simp] theorem respond_b (d : Word) (s : State) : (respond d s).b = s.b := rfl
@[simp] theorem respond_len (d : Word) (s : State) : (respond d s).len = s.len := rfl
@[simp] theorem respond_status (d : Word) (s : State) : (respond d s).status = s.status := rfl
@[simp] theorem respond_rsp (d : Word) (s : State) : (respond d s).rsp = some ⟨s.status, d⟩ := rfl
@[simp] theorem respond_inbox (d : Word) (s : State) : (respond d s).inbox = s.inbox := rfl

/-- Rule R152, first half: raising records the code when no fault is recorded. -/
theorem raise_of_ok {s : State} (h : s.status = .ok) (f : Status) :
    raise f s = { s with status := f, rsp := some ⟨f, 0⟩ } := by
  simp [raise, h, respond, State.setRsp, State.setStatus]

/-- Rule R152, second half: a recorded fault stays. -/
theorem raise_of_faulted {s : State} (h : s.status ≠ .ok) (f : Status) :
    raise f s = { s with rsp := some ⟨s.status, 0⟩ } := by
  simp [raise, h, respond, State.setRsp]

@[simp] theorem raise_a (f : Status) (s : State) : (raise f s).a = s.a := by
  unfold raise
  split <;> rfl

@[simp] theorem raise_b (f : Status) (s : State) : (raise f s).b = s.b := by
  unfold raise
  split <;> rfl

@[simp] theorem raise_len (f : Status) (s : State) : (raise f s).len = s.len := by
  unfold raise
  split <;> rfl

@[simp] theorem raise_status (f : Status) (s : State) :
    (raise f s).status = if s.status = .ok then f else s.status := by
  unfold raise
  split <;> rfl

@[simp] theorem raise_rsp (f : Status) (s : State) :
    (raise f s).rsp = some ⟨if s.status = .ok then f else s.status, 0⟩ := by
  unfold raise
  split <;> rfl

@[simp] theorem raise_inbox (f : Status) (s : State) : (raise f s).inbox = s.inbox := by
  unfold raise
  split <;> rfl

/-- The end of a checking command, when no fault was recorded before: STATUS takes the verdict, the datum is 0
(rules R91, R92, R124). -/
theorem settle_of_ok {s : State} (h : s.status = .ok) (verdict : Status) :
    settle verdict s = { s with status := verdict, rsp := some ⟨verdict, 0⟩ } := by
  unfold settle
  split
  next hv =>
    subst hv
    exact state_ext rfl rfl rfl h (by simp [h]) rfl
  next => exact raise_of_ok h verdict

/-- Rules R20, R72, R171. -/
theorem toS0_eq (s : State) : toS0 s = { s with a := 1, b := 0, len := 0, status := .ok } := rfl

/-- Rule R70 (a), a block without a fault executes. -/
theorem whenClear_of_ok {s : State} (h : s.status = .ok) (run : State → State) : whenClear run s = run s := by
  simp [whenClear, faulted, h]

/-- Rule R70 (a), a faulted block ignores. -/
theorem whenClear_of_faulted {s : State} (h : s.status ≠ .ok) (run : State → State) :
    whenClear run s = { s with rsp := some ⟨s.status, 0⟩ } := by
  simp [whenClear, faulted, h, respond_eq]

/-- Rules R70 (b), R151: the one thing an illegal word does. -/
theorem takeIllegal_eq (s : State) :
    takeIllegal s = { s with
      status := if s.status = .ok then .illegalCommand else s.status
      rsp := some ⟨if s.status = .ok then .illegalCommand else s.status, 0⟩ } :=
  state_ext (by simp [takeIllegal]) (by simp [takeIllegal]) (by simp [takeIllegal]) (by simp [takeIllegal])
    (by simp [takeIllegal]) (by simp [takeIllegal])

/-- Rule R171. -/
theorem takeReset_eq (s : State) :
    takeReset s = { a := 1, b := 0, len := 0, status := .ok, rsp := none, inbox := s.inbox } := rfl

/-- Rule R10: with nothing presented only the output is cleared. -/
theorem idle_eq (s : State) : idle s = { s with rsp := none } := rfl

theorem takeEvent_nil {s : State} (h : s.inbox = []) : takeEvent s = none := by
  simp [takeEvent, h]

theorem takeEvent_cons {s : State} {e : HostEvent} {rest : List HostEvent} (h : s.inbox = e :: rest) :
    takeEvent s = some (e, { s with inbox := rest }) := by
  simp [takeEvent, h, State.setInbox]

@[simp] theorem presentFirst_inbox (w : CommandWord) (s : State) :
    (presentFirst w s).inbox = .command w :: s.inbox := rfl

end Sys2Proof.Machine
end

