-- ==== Sys2Proof/Laws/Exec.lean ====
section
/-! SUPPORT. What a command, an event and a step can do, as equations to rewrite with. -/

namespace Sys2Proof.Machine

/-- The state a command leaves (rule R70): the meanings as one function without the outcome around it. -/
def effect (i : Instr) (s : State) : State :=
  match i with
  | .nop => respond 0 s
  | .begin => respond 0 (toS0 s)
  | .stat => respond (statusData s.status) s
  | .engf sel => whenClear (raise (if sel = 0 then .inflateFailure else .deflateFailure)) s
  | .hlen w => whenClear (fun t => respond 0 (t.setLen w)) s
  | .hchk h => whenClear (fun t => settle (hdrCheck t.len.toNat h) t) s
  | .tcmp w => whenClear (fun t => settle (trlCheck w (pack t.a t.b)) t) s
  | .hemit => whenClear (respond (zextHalf (emittedHeader Config.flgConst))) s
  | .ainit => whenClear (fun t => respond 0 ((t.setA aInit).setB bInit)) s
  | .aupd d => whenClear (fun t => respond 0 ((t.setA (adlStep (t.a, t.b) d).1).setB (adlStep (t.a, t.b) d).2)) s
  | .ard => whenClear (fun t => respond (pack t.a t.b) t) s
  | .slen w => whenClear (settle (if w.getLsbD 0 then .invalidPayloadLength else .ok)) s
  | .swap h => whenClear (respond (zextHalf (joinBytes (lowByte h) (highByte h)))) s

/-- No command stops (rule R10). -/
theorem exec_eq_effect (i : Instr) (s : State) : exec i s = .next (effect i s) := by
  cases i <;> rfl

/-- Every command on a block without a fault, as the record it leaves. -/
theorem effect_of_ok {s : State} (h : s.status = .ok) (i : Instr) :
    effect i s = match i with
      | .nop => { s with rsp := some ⟨.ok, 0⟩ }
      | .begin => { s with a := 1, b := 0, len := 0, rsp := some ⟨.ok, 0⟩ }
      | .stat => { s with rsp := some ⟨.ok, 0⟩ }
      | .engf sel =>
        let f := if sel = 0 then .inflateFailure else .deflateFailure
        { s with status := f, rsp := some ⟨f, 0⟩ }
      | .hlen w => { s with len := w, rsp := some ⟨.ok, 0⟩ }
      | .hchk x =>
        { s with status := hdrCheck s.len.toNat x, rsp := some ⟨hdrCheck s.len.toNat x, 0⟩ }
      | .tcmp w =>
        { s with status := trlCheck w (pack s.a s.b), rsp := some ⟨trlCheck w (pack s.a s.b), 0⟩ }
      | .hemit => { s with rsp := some ⟨.ok, zextHalf (emittedHeader Config.flgConst)⟩ }
      | .ainit => { s with a := 1, b := 0, rsp := some ⟨.ok, 0⟩ }
      | .aupd d =>
        { s with a := (adlStep (s.a, s.b) d).1, b := (adlStep (s.a, s.b) d).2, rsp := some ⟨.ok, 0⟩ }
      | .ard => { s with rsp := some ⟨.ok, pack s.a s.b⟩ }
      | .slen w =>
        let f := if w.getLsbD 0 then .invalidPayloadLength else .ok
        { s with status := f, rsp := some ⟨f, 0⟩ }
      | .swap x => { s with rsp := some ⟨.ok, zextHalf (joinBytes (lowByte x) (highByte x))⟩ } := by
  cases s
  simp only at h
  subst h
  cases i <;> simp [effect, whenClear_of_ok, raise_of_ok, settle_of_ok, respond_eq, toS0_eq, State.setA, State.setB,
    State.setLen, aInit, bInit, statusData, Status.code]

/-- Every command on a faulted block, as the record it leaves. -/
theorem effect_of_faulted {s : State} (h : s.status ≠ .ok) (i : Instr) :
    effect i s = match i with
      | .begin => { s with a := 1, b := 0, len := 0, status := .ok, rsp := some ⟨.ok, 0⟩ }
      | .stat => { s with rsp := some ⟨s.status, statusData s.status⟩ }
      | _ => { s with rsp := some ⟨s.status, 0⟩ } := by
  cases i <;> simp [effect, whenClear_of_faulted h, respond_eq, toS0_eq]

/-- A command neither reads nor writes what the host will present. -/
theorem effect_inbox (i : Instr) (s : State) (l : List HostEvent) :
    effect i { s with inbox := l } = { effect i s with inbox := l } := by
  by_cases h : s.status = .ok
  · rw [effect_of_ok h, effect_of_ok (s := { s with inbox := l }) h]
    cases i <;> rfl
  · rw [effect_of_faulted h, effect_of_faulted (s := { s with inbox := l }) h]
    cases i <;> rfl

theorem present_reset (s : State) : present .reset s = .next (takeReset s) := rfl

theorem present_legal {w : CommandWord} {i : Instr} (h : decode w = some i) (s : State) :
    present (.command w) s = exec i s := by
  simp [present, execWord, h]

theorem present_illegal {w : CommandWord} (h : decode w = none) (s : State) :
    present (.command w) s = .next (takeIllegal s) := by
  simp [present, execWord, h]

theorem step_of_nil {s : State} (h : s.inbox = []) : step s = .next (idle s) := by
  simp [step, takeEvent_nil h]

theorem step_of_cons {s : State} {e : HostEvent} {rest : List HostEvent} (h : s.inbox = e :: rest) :
    step s = present e { s with inbox := rest } := by
  simp [step, takeEvent_cons h]

/-- What an event does to the registers and the output does not depend on what comes after it. -/
theorem present_inbox (e : HostEvent) (s : State) :
    ∃ u : State, ∀ l, present e { s with inbox := l } = .next { u with inbox := l } := by
  cases e with
  | reset => exact ⟨takeReset s, fun l => rfl⟩
  | command w =>
    cases hd : decode w with
    | none => exact ⟨takeIllegal s, fun l => by rw [present_illegal hd, takeIllegal_eq, takeIllegal_eq]⟩
    | some i => exact ⟨effect i s, fun l => by rw [present_legal hd, exec_eq_effect, effect_inbox]⟩

end Sys2Proof.Machine
end

