-- ==== Sys2Proof/Laws/HostProcedures.lean ====
section
/-! SUPPORT. Which lengths can be declared, and what follows for the pseudo-commands and the host's procedures. -/

namespace Sys2Proof.Machine

theorem declarable_iff {b : List Byte} : declarable b = true ↔ b.length < 2 ^ 32 := by
  simp [declarable]

/-- A length below 2^32 is its own operand. -/
theorem lengthOperand_of_lt {b : List Byte} (h : b.length < 2 ^ 32) :
    lengthOperand b = some (BitVec.ofNat 32 b.length) := by
  rw [lengthOperand, if_pos (declarable_iff.mpr h)]

/-- Decision D22: the rest has no operand. -/
theorem lengthOperand_of_ge {b : List Byte} (h : 2 ^ 32 ≤ b.length) : lengthOperand b = none := by
  rw [lengthOperand, if_neg (fun hd => absurd (declarable_iff.mp hd) (Nat.not_lt.mpr h))]

/-- A declared length is the true one (duties H6, H9 of rule R175). -/
theorem toNat_of_lengthOperand {b : List Byte} {n : Word} (h : lengthOperand b = some n) : n.toNat = b.length := by
  by_cases hb : b.length < 2 ^ 32
  · rw [lengthOperand_of_lt hb] at h
    cases h
    rw [BitVec.toNat_ofNat, Nat.mod_eq_of_lt hb]
  · rw [lengthOperand_of_ge (Nat.not_lt.mp hb)] at h
    cases h

theorem swapSeq_of_lt {b : List Byte} (h : b.length < 2 ^ 32) :
    swapSeq b = some (.slen (BitVec.ofNat 32 b.length) :: swaps b) := by
  rw [swapSeq, lengthOperand_of_lt h, Option.map_some]

@[simp] theorem orRefuse_some {α β : Type} (x : α) (f : α → Host.Outcome β Fault Refusal) :
    orRefuse (some x) f = f x := rfl

@[simp] theorem orRefuse_none {α β : Type} (f : α → Host.Outcome β Fault Refusal) :
    orRefuse none f = .refused .undeclarableLength := rfl

end Sys2Proof.Machine
end

