-- ==== Sys2Proof/Laws/Operands.lean ====
section
/-! SUPPORT. Packing bytes and unpacking them (rule R37), as numbers and as fields. -/

namespace Sys2Proof.Machine

/-- A byte put below a value, as a number. -/
theorem append_byte_toNat {n : Nat} (x : BitVec n) (y : Byte) : (x ++ y).toNat = x.toNat * 256 + y.toNat := by
  rw [BitVec.toNat_append, Nat.shiftLeft_eq, Nat.mul_comm, ← Nat.two_pow_add_eq_or_of_lt y.isLt]

theorem joinBytes_toNat (x y : Byte) : (joinBytes x y).toNat = x.toNat * 256 + y.toNat := append_byte_toNat x y

/-- The trailer value as a number, the first byte most significant (rule R35). -/
theorem joinTrailer_toNat (t0 t1 t2 t3 : Byte) :
    (joinTrailer t0 t1 t2 t3).toNat = t0.toNat * 16777216 + t1.toNat * 65536 + t2.toNat * 256 + t3.toNat := by
  simp only [joinTrailer, append_byte_toNat]
  omega

theorem highByte_toNat (h : Half) : (highByte h).toNat = h.toNat / 256 := by
  have := h.isLt
  simp [highByte, Nat.shiftRight_eq_div_pow]
  omega

theorem lowByte_toNat (h : Half) : (lowByte h).toNat = h.toNat % 256 := by
  simp [lowByte]

@[simp] theorem highByte_joinBytes (x y : Byte) : highByte (joinBytes x y) = x := by
  apply BitVec.eq_of_toNat_eq
  rw [highByte_toNat, joinBytes_toNat]
  omega

@[simp] theorem lowByte_joinBytes (x y : Byte) : lowByte (joinBytes x y) = y := by
  apply BitVec.eq_of_toNat_eq
  rw [lowByte_toNat, joinBytes_toNat]
  omega

@[simp] theorem joinBytes_high_low (h : Half) : joinBytes (highByte h) (lowByte h) = h := by
  apply BitVec.eq_of_toNat_eq
  rw [joinBytes_toNat, highByte_toNat, lowByte_toNat]
  omega

@[simp] theorem lowHalf_zextHalf (h : Half) : lowHalf (zextHalf h) = h := by
  apply BitVec.eq_of_toNat_eq
  have := h.isLt
  simp [lowHalf, zextHalf]
  omega

end Sys2Proof.Machine
end

