-- ==== Sys2Proof/Laws/Word.lean ====
section
/-! SUPPORT. The fields of a command word and the operand taken from `arg`. -/

namespace Sys2Proof

@[simp] theorem opField_append (op : Byte) (arg : Word) : opField (op ++ arg) = op := by
  apply BitVec.eq_of_getLsbD_eq
  intro k hk
  have h : (op ++ arg).getLsbD (32 + k) = op.getLsbD k := by
    rw [BitVec.getLsbD_append]
    simp
  simpa [opField, hk] using h

@[simp] theorem argField_append (op : Byte) (arg : Word) : argField (op ++ arg) = arg := by
  apply BitVec.eq_of_getLsbD_eq
  intro k hk
  have h : (op ++ arg).getLsbD k = arg.getLsbD k := by
    rw [BitVec.getLsbD_append]
    simp [hk]
  simpa [argField, hk] using h

/-- A word is its two fields (rule R50). -/
theorem append_fields (w : CommandWord) : opField w ++ argField w = w := by
  apply BitVec.eq_of_getLsbD_eq
  intro k hk
  rw [BitVec.getLsbD_append]
  by_cases h : k < 32
  · simp [argField, h]
  · have h8 : k - 32 < 8 := by omega
    have hk' : 32 + (k - 32) = k := by omega
    simp [opField, h, h8, hk']

@[simp] theorem opField_encode (i : Instr) : opField (encode i) = opcode i := opField_append _ _

@[simp] theorem argField_encode (i : Instr) : argField (encode i) = argument i := argField_append _ _

/-- The operand that was put in the low bits is taken out again (rule R53). -/
theorem takeOperand_setWidth {n : Nat} (h : n ≤ 32) (x : BitVec n) : takeOperand n (x.setWidth 32) = some x := by
  have hx := x.isLt
  have hlt : x.toNat < 4294967296 := Nat.lt_of_lt_of_le hx (Nat.pow_le_pow_right (by omega) h)
  have h0 : (x.setWidth 32 : Word) >>> n = 0 := by
    apply BitVec.eq_of_toNat_eq
    simp [BitVec.toNat_ushiftRight, Nat.mod_eq_of_lt hlt, Nat.shiftRight_eq_div_pow, hx]
  have h1 : (x.setWidth 32 : Word).setWidth n = x := by
    apply BitVec.eq_of_toNat_eq
    simp [Nat.mod_eq_of_lt hlt, Nat.mod_eq_of_lt hx]
  simp [takeOperand, h0, h1]

/-- What is taken from `arg` is all of `arg` (rule R54 (b)). -/
theorem takeOperand_eq_some {n : Nat} {arg : Word} {x : BitVec n} (ht : takeOperand n arg = some x) :
    x.setWidth 32 = arg := by
  unfold takeOperand at ht
  split at ht
  next h0 =>
    cases ht
    have hdiv : arg.toNat / 2 ^ n = 0 := by
      have := congrArg BitVec.toNat h0
      simpa [BitVec.toNat_ushiftRight, Nat.shiftRight_eq_div_pow] using this
    have hlt : arg.toNat < 2 ^ n := by
      rcases Nat.div_eq_zero_iff.mp hdiv with hp | hp
      · exact absurd hp (by positivity)
      · exact hp
    apply BitVec.eq_of_toNat_eq
    have := arg.isLt
    simp [Nat.mod_eq_of_lt hlt, Nat.mod_eq_of_lt this]
  next => cases ht

/-- Two words are equal when their fields are. -/
theorem append_inj {op op' : Byte} {arg arg' : Word} : op ++ arg = op' ++ arg' ↔ op = op' ∧ arg = arg' := by
  constructor
  · intro h
    exact ⟨by rw [← opField_append op arg, h, opField_append], by rw [← argField_append op arg, h, argField_append]⟩
  · rintro ⟨rfl, rfl⟩
    rfl

/-- The reserved bits of a format with `n` operand bits, selected by a mask or by a shift (rule R51). -/
theorem and_shiftLeft_eq_zero (arg : Word) (n : Nat) : arg &&& (BitVec.allOnes 32 <<< n) = 0#32 ↔ arg >>> n = 0#32 := by
  constructor
  · intro h
    apply BitVec.eq_of_getLsbD_eq
    intro k hk
    have hb := congrArg (fun x : Word => x.getLsbD (n + k)) h
    by_cases hn : n + k < 32
    · have hb' : arg.getLsbD (n + k) = false := by
        have hones : (BitVec.allOnes 32).getLsbD k = true := by simp only [BitVec.getLsbD_allOnes, hk, decide_true]
        simp only [BitVec.getLsbD_and, BitVec.getLsbD_shiftLeft, Nat.add_sub_cancel_left, hones, hn, decide_true,
          Nat.not_lt.mpr (Nat.le_add_right n k), decide_false, Bool.not_false, Bool.and_true,
          BitVec.getLsbD_zero] at hb
        exact hb
      simp [hb']
    · simp [BitVec.getLsbD_of_ge arg (n + k) (by omega)]
  · intro h
    apply BitVec.eq_of_getLsbD_eq
    intro k hk
    by_cases hn : k < n
    · simp [hn]
    · have hb := congrArg (fun x : Word => x.getLsbD (k - n)) h
      have hk' : n + (k - n) = k := by omega
      have hb' : arg.getLsbD k = false := by simpa [hk'] using hb
      simp [hb']

/-- A row's test on a word, as the two conditions of rule R54: the `op` and the reserved bits. -/
theorem row_test (op op' : Byte) (arg : Word) (n : Nat) :
    (op ++ arg) &&& (0xFF#8 ++ BitVec.allOnes 32 <<< n) = op' ++ 0#32 ↔ op = op' ∧ arg >>> n = 0#32 := by
  have h8 : op &&& 0xFF#8 = op := by
    apply BitVec.eq_of_getLsbD_eq
    intro k hk
    have hf : (0xFF#8).getLsbD k = true := by
      interval_cases k <;> decide
    rw [BitVec.getLsbD_and, hf, Bool.and_true]
  rw [BitVec.and_append, h8, append_inj, and_shiftLeft_eq_zero]

/-- Every row's mask and match columns are its `op` and its format (rules R51, R52). -/
theorem opcodeTable_columns : ∀ r ∈ opcodeTable,
    r.mask = 0xFF#8 ++ BitVec.allOnes 32 <<< r.format.operandBits ∧ r.pattern = r.op ++ 0#32 := by
  decide

/-- A row's test as the two conditions of rule R54. -/
theorem row_test_iff {r : OpcodeRow} (hr : r ∈ opcodeTable) (w : CommandWord) :
    w &&& r.mask = r.pattern ↔ opField w = r.op ∧ argField w >>> r.format.operandBits = 0#32 := by
  obtain ⟨hm, hp⟩ := opcodeTable_columns r hr
  rw [hm, hp]
  conv => lhs; lhs; lhs; rw [← append_fields w]
  exact row_test _ _ _ _

end Sys2Proof
end

