-- ==== Sys2Proof/Laws/PerInstr.lean ====
section
/-! SUPPORT. Statements about every command as syntax, one lemma per constructor. `EncodeLegal`: the word the encoder gives
is legal, by the mask and match columns of the opcode table (rule R54). -/

namespace Sys2Proof.Laws.EncodeLegal

/-- The encoded word matches a row of the opcode table (rule R54). -/
def Statement (i : Instr) : Prop := legal (encode i) = true

/-- One matching row is enough. -/
theorem of_row {i : Instr} (r : OpcodeRow) (hr : r ∈ opcodeTable) (hop : opcode i = r.op)
    (harg : argument i >>> r.format.operandBits = 0) : Statement i := by
  have h := (row_test_iff hr (encode i)).mpr ⟨by simpa using hop, by simpa using harg⟩
  exact List.any_eq_true.mpr ⟨r, hr, by simpa using h⟩

/-- An operand of `n` bits leaves the bits above it 0. -/
theorem operand_fits {n : Nat} (x : BitVec n) : (x.setWidth 32 : Word) >>> n = 0 := by
  apply BitVec.eq_of_getLsbD_eq
  intro k hk
  simp

/-- A 32-bit operand leaves no bits above it. -/
theorem word_fits (w : Word) : w >>> 32 = 0 := by
  simpa using operand_fits w

theorem nop : Statement .nop := of_row ⟨"NOP", 0x00, .z, 0x0000000000, 0xFFFFFFFFFF⟩ (by decide) rfl (by decide)

theorem begin : Statement .begin := of_row ⟨"BEGIN", 0x01, .z, 0x0100000000, 0xFFFFFFFFFF⟩ (by decide) rfl (by decide)

theorem stat : Statement .stat := of_row ⟨"STAT", 0x02, .z, 0x0200000000, 0xFFFFFFFFFF⟩ (by decide) rfl (by decide)

theorem engf (sel : BitVec 1) : Statement (.engf sel) :=
  of_row ⟨"ENGF", 0x03, .i1, 0x0300000000, 0xFFFFFFFFFE⟩ (by decide) rfl (operand_fits sel)

theorem hlen (w : Word) : Statement (.hlen w) :=
  of_row ⟨"HLEN", 0x10, .i32, 0x1000000000, 0xFF00000000⟩ (by decide) rfl (word_fits w)

theorem hchk (h : Half) : Statement (.hchk h) :=
  of_row ⟨"HCHK", 0x11, .i16, 0x1100000000, 0xFFFFFF0000⟩ (by decide) rfl (operand_fits h)

theorem tcmp (w : Word) : Statement (.tcmp w) :=
  of_row ⟨"TCMP", 0x12, .i32, 0x1200000000, 0xFF00000000⟩ (by decide) rfl (word_fits w)

theorem hemit : Statement .hemit := of_row ⟨"HEMIT", 0x13, .z, 0x1300000000, 0xFFFFFFFFFF⟩ (by decide) rfl (by decide)

theorem ainit : Statement .ainit := of_row ⟨"AINIT", 0x20, .z, 0x2000000000, 0xFFFFFFFFFF⟩ (by decide) rfl (by decide)

theorem aupd (d : Byte) : Statement (.aupd d) :=
  of_row ⟨"AUPD", 0x21, .i8, 0x2100000000, 0xFFFFFFFF00⟩ (by decide) rfl (operand_fits d)

theorem ard : Statement .ard := of_row ⟨"ARD", 0x22, .z, 0x2200000000, 0xFFFFFFFFFF⟩ (by decide) rfl (by decide)

theorem slen (w : Word) : Statement (.slen w) :=
  of_row ⟨"SLEN", 0x30, .i32, 0x3000000000, 0xFF00000000⟩ (by decide) rfl (word_fits w)

theorem swap (h : Half) : Statement (.swap h) :=
  of_row ⟨"SWAP", 0x31, .i16, 0x3100000000, 0xFFFFFF0000⟩ (by decide) rfl (operand_fits h)

end Sys2Proof.Laws.EncodeLegal
end

