-- ==== Sys2Proof/Laws/Run.lean ====
section
/-! SUPPORT. One step of a run; apply it with `exact`, since the host's `core` hides that its state is `State`. -/

namespace Sys2Proof.Machine

/-- A run of `n + 1` steps is the first step and a run of `n` from there. -/
theorem run_succ_of_next (M : Host.Core) {s t : M.State} (h : M.step s = .next t) (n : Nat) :
    M.run (n + 1) s = M.run n t := by
  simp only [Host.Core.run, h]

end Sys2Proof.Machine
end

