-- ==== Sys2Proof/Laws/Sequence.lean ====
section
/-! SUPPORT. How runs compose. -/

namespace Sys2Proof.Machine

@[simp] theorem andThen_next {α β : Type} (x : α) (f : α → Host.Outcome β Fault Refusal) :
    andThen (.next x) f = f x := rfl

/-- What follows a next state followed from a next state. -/
theorem andThen_eq_next {α β : Type} {o : Host.Outcome α Fault Refusal} {f : α → Host.Outcome β Fault Refusal} {y : β} :
    andThen o f = .next y ↔ ∃ x, o = .next x ∧ f x = .next y := by
  cases o <;> simp [andThen]

@[simp] theorem collect_nil (s : State) : collect [] s = .next (s, []) := rfl

theorem collect_cons (e : HostEvent) (es : List HostEvent) (s : State) :
    collect (e :: es) s =
      andThen (present e s) fun t => andThen (collect es t) fun r => .next (r.1, t.rsp.toList ++ r.2) := rfl

/-- A run in two parts is the first part and then the second (rule R42). -/
theorem collect_append (es fs : List HostEvent) (s : State) :
    collect (es ++ fs) s =
      andThen (collect es s) fun r => andThen (collect fs r.1) fun q => .next (q.1, r.2 ++ q.2) := by
  induction es generalizing s with
  | nil =>
    cases h : collect fs s <;> simp [andThen, h]
  | cons e es ih =>
    rw [List.cons_append, collect_cons, collect_cons]
    cases present e s with
    | fault r => rfl
    | refused r => rfl
    | next t =>
      simp only [andThen_next, ih]
      cases collect es t with
      | fault r => rfl
      | refused r => rfl
      | next q =>
        simp only [andThen_next]
        cases collect fs q.1 <;> simp [andThen]

@[simp] theorem submit_nil : submit [] = [] := rfl

@[simp] theorem submit_cons (i : Instr) (is : List Instr) :
    submit (i :: is) = .command (encode i) :: submit is := rfl

@[simp] theorem submit_append (is js : List Instr) : submit (is ++ js) = submit is ++ submit js := by
  simp [submit]

end Sys2Proof.Machine
end

