-- ==== Sys2Proof/Tests/Slice0.lean ====
section
/-! SUPPORT. Tests. The expected values are the spec's own: its examples and vectors in 95_test_vectors.md (V-…, P…), rows of
spec/opcode_table.json, and words written out from rules R50 to R52. Then, for every statement with hypotheses, a witness
that they can be met. -/

namespace Sys2Proof.Tests

open Sys2Proof Sys2Proof.Machine

/-- A state with no response given and nothing presented. -/
def regs (a b : Half) (len : Word) (status : Status) : State := ⟨a, b, len, status, none, []⟩

/-- The state the spec uses for abort gating (95_test_vectors 2.7). -/
def gated : State := regs 7 13 12 .headerChecksumMismatch

/-- The state, if the outcome is one. -/
def stateOf (o : Host.Outcome State Fault Refusal) : Option State :=
  match o with
  | .next s => some s
  | .fault _ => none
  | .refused _ => none

/-- The four registers after a command. -/
def regsAfter (i : Instr) (s : State) : Option (Nat × Nat × Nat × Status) :=
  (stateOf (exec i s)).map fun t => (t.a.toNat, t.b.toNat, t.len.toNat, t.status)

/-- The response of a command as the number of its 36-bit word. -/
def answer (i : Instr) (s : State) : Option Nat :=
  ((stateOf (exec i s)).bind State.rsp).map fun r => r.word.toNat

/-- STATUS after a command word. -/
def statusAfterWord (w : CommandWord) (s : State) : Option Status :=
  (stateOf (execWord w s)).map State.status

/-! ## Ill-formed words: one for each check -/

/-- Undefined `op` (V-E13, V-E14, V-E15). -/
theorem test_wellFormed_refuses_undefined_op :
    wellFormed 0x0400000000 = false ∧ wellFormed 0x1400000000 = false ∧ wellFormed 0xFFFFFFFFFF = false := by decide

/-- A reserved bit in each of the formats that have one: Z (V-E8, V-E9), I1 (V-E7), I8 (V-E10), I16 (V-E11, V-E12). -/
theorem test_wellFormed_refuses_reserved_bit :
    wellFormed 0x0100000001 = false ∧ wellFormed 0x0080000000 = false ∧ wellFormed 0x0300000002 = false ∧
    wellFormed 0x2100000100 = false ∧ wellFormed 0x110001789C = false ∧ wellFormed 0x3100010102 = false := by decide

/-- Format I32 has no reserved bit (V-E17); AUPD 0xFF is legal (V-E18). -/
theorem test_wellFormed_accepts : wellFormed 0x12FFFFFFFF = true ∧ wellFormed 0x21000000FF = true := by decide

/-! ## Decoding: words written out from the encoding, every constructor -/

/-- 40_system.md: ops 0x00 to 0x03. -/
theorem test_decode_system :
    decode 0x0000000000 = some .nop ∧ decode 0x0100000000 = some .begin ∧ decode 0x0200000000 = some .stat ∧
    decode 0x0300000000 = some (.engf 0) ∧ decode 0x0300000001 = some (.engf 1) := by decide

/-- 41_container.md: ops 0x10 to 0x13 (P2; V-H4 for the greatest length). -/
theorem test_decode_container :
    decode 0x100000000C = some (.hlen 12) ∧ decode 0x10FFFFFFFF = some (.hlen 0xFFFFFFFF) ∧
    decode 0x110000789C = some (.hchk 0x789C) ∧ decode 0x120018000B = some (.tcmp 0x0018000B) ∧
    decode 0x1300000000 = some .hemit := by decide

/-- 42_adler32.md: ops 0x20 to 0x22 (P1). -/
theorem test_decode_checksum :
    decode 0x2000000000 = some .ainit ∧ decode 0x2100000004 = some (.aupd 4) ∧ decode 0x2200000000 = some .ard := by
  decide

/-- 43_byte_pair_swap.md: ops 0x30 and 0x31 (P3). -/
theorem test_decode_swap :
    decode 0x3000000004 = some (.slen 4) ∧ decode 0x3100000102 = some (.swap 0x0102) := by decide

/-- The same word through the table's numbering of bits. -/
theorem test_decodeTableWord :
    decodeTableWord 40 0x110000789C = some (.hchk 0x789C) ∧ decodeTableWord 40 0x2100000100 = none := by decide

/-- The word placed for the next step is the one that runs: AUPD 0x01 from reset (P1, step 2). -/
theorem test_withFetchWord :
    (stateOf (step (State.reset.withFetchWord 40 0x2100000001))).map (fun t => (t.a.toNat, t.b.toNat)) = some (2, 2) := by
  decide

/-! ## Reset and the idle step -/

/-- 95_test_vectors 2.8: reset from (254, 253, 77, 3). -/
theorem test_reset :
    (stateOf (step { regs 254 253 77 .unsupportedWindowSize with inbox := [.reset] })).map
      (fun t => (t.a.toNat, t.b.toNat, t.len.toNat, t.status, t.rsp)) = some (1, 0, 0, .ok, none) := by decide

/-! ## Single commands, at most two tests for each -/

/-- V-E2, NOP while faulted. -/
theorem test_nop : answer .nop (regs 1 0 12 .unsupportedMethod) = some 0x200000000 := by decide

/-- V-E3, BEGIN clears a fault and every register. -/
theorem test_begin : regsAfter .begin (regs 254 253 77 .unsupportedWindowSize) = some (1, 0, 0, .ok) := by decide

/-- V-E4. -/
theorem test_stat : answer .stat (regs 1 0 5 .unsupportedWindowSize) = some 0x300000003 := by decide

/-- V-E5, V-E6. -/
theorem test_engf :
    regsAfter (.engf 0) (regs 1 0 13 .ok) = some (1, 0, 13, .inflateFailure) ∧
    regsAfter (.engf 1) (regs 11 26 0 .ok) = some (11, 26, 0, .deflateFailure) := by decide

/-- 2.7: ENGF does not replace a recorded fault. -/
theorem test_engf_faulted : answer (.engf 1) gated = some 0x500000000 := by decide

/-- 2.3: HLEN overwrites; the greatest value is accepted. -/
theorem test_hlen :
    regsAfter (.hlen 12) (regs 1 0 5 .ok) = some (1, 0, 12, .ok) ∧
    regsAfter (.hlen 4294967295) (regs 1 0 0 .ok) = some (1, 0, 4294967295, .ok) := by decide

/-- V-H1 to V-H6: the four accepted headers, and the length test first. -/
theorem test_hchk_pass_and_length :
    (regsAfter (.hchk 0x7801) (regs 1 0 6 .ok)) = some (1, 0, 6, .ok) ∧
    (regsAfter (.hchk 0x785E) (regs 1 0 12 .ok)) = some (1, 0, 12, .ok) ∧
    (regsAfter (.hchk 0x78DA) (regs 1 0 4294967295 .ok)) = some (1, 0, 4294967295, .ok) ∧
    (regsAfter (.hchk 0x789C) (regs 1 0 5 .ok)) = some (1, 0, 5, .malformedContainer) ∧
    (regsAfter (.hchk 0x0000) (regs 1 0 0 .ok)) = some (1, 0, 0, .malformedContainer) := by decide

/-- V-H7, V-H9, V-H11, V-H15, V-H17: the order of the four header tests. -/
theorem test_hchk_faults :
    (answer (.hchk 0x799C) (regs 1 0 12 .ok)) = some 0x200000000 ∧
    (answer (.hchk 0xFFFF) (regs 1 0 12 .ok)) = some 0x200000000 ∧
    (answer (.hchk 0x6881) (regs 1 0 12 .ok)) = some 0x300000000 ∧
    (answer (.hchk 0x78BC) (regs 1 0 12 .ok)) = some 0x400000000 ∧
    (answer (.hchk 0x789D) (regs 1 0 12 .ok)) = some 0x500000000 := by decide

/-- V-T1, V-T8. -/
theorem test_tcmp_match :
    answer (.tcmp 0x0018000B) (regs 11 24 0 .ok) = some 0 ∧ answer (.tcmp 0xFFF00001) (regs 1 65520 0 .ok) = some 0 := by
  decide

/-- V-T3, V-T4, V-T5: all bits, halves in order, bytes in order. -/
theorem test_tcmp_mismatch :
    answer (.tcmp 0x8018000B) (regs 11 24 0 .ok) = some 0x700000000 ∧
    answer (.tcmp 0x000B0018) (regs 11 24 0 .ok) = some 0x700000000 ∧
    answer (.tcmp 0x0B001800) (regs 11 24 0 .ok) = some 0x700000000 := by decide

/-- V-S3: the emitted header's byte 0. -/
theorem test_hemit_byte0 : cmfConst = 0x78 := by decide

/-- 2.7: no datum while faulted. -/
theorem test_hemit_faulted : answer .hemit gated = some 0x500000000 := by decide

/-- 2.2, other single commands: LEN stays. -/
theorem test_ainit : regsAfter .ainit (regs 11 24 12 .ok) = some (1, 0, 12, .ok) := by decide

/-- 2.2: the first wraps of A and of B. -/
theorem test_aupd_wraps :
    regsAfter (.aupd 0xFF) (regs 65281 2048 0 .ok) = some (15, 2063, 0, .ok) ∧
    regsAfter (.aupd 0xFF) (regs 5611 64537 0 .ok) = some (5866, 4882, 0, .ok) := by decide

/-- 2.2: the largest sums. -/
theorem test_aupd_largest :
    regsAfter (.aupd 0xFF) (regs 65520 65520 0 .ok) = some (254, 253, 0, .ok) ∧
    regsAfter (.aupd 0x01) (regs 65520 0 0 .ok) = some (0, 0, 0, .ok) := by decide

/-- 2.2: B is the upper half. -/
theorem test_ard : answer .ard (regs 11 24 12 .ok) = some 0x0018000B := by decide

/-- V-W11, V-W15. -/
theorem test_slen_even :
    answer (.slen 0) (regs 1 0 0 .ok) = some 0 ∧ answer (.slen 4294967294) (regs 1 0 0 .ok) = some 0 := by decide

/-- V-W14, V-W16. -/
theorem test_slen_odd :
    regsAfter (.slen 5) (regs 1 0 0 .ok) = some (1, 0, 0, .invalidPayloadLength) ∧
    regsAfter (.slen 4294967295) (regs 1 0 0 .ok) = some (1, 0, 0, .invalidPayloadLength) := by decide

/-- V-W1, V-W10: no sign extension. -/
theorem test_swap :
    answer (.swap 0x0102) (regs 1 0 0 .ok) = some 0x0201 ∧ answer (.swap 0x8001) (regs 1 0 0 .ok) = some 0x0180 := by
  decide

/-- 2.7: the three commands that would do something if they were not gated. -/
theorem test_gating :
    answer (.tcmp 0x000D0007) gated = some 0x500000000 ∧ answer (.slen 3) gated = some 0x500000000 ∧
    regsAfter (.hlen 99) gated = some (7, 13, 12, .headerChecksumMismatch) := by decide

/-- V-E10, V-E8, V-E16: an illegal word raises 10, is no BEGIN, and does not replace a fault. -/
theorem test_illegal :
    statusAfterWord 0x2100000100 (regs 2 2 0 .ok) = some .illegalCommand ∧
    statusAfterWord 0x0100000001 (regs 2 2 0 .illegalCommand) = some .illegalCommand ∧
    statusAfterWord 0xFF00000000 (regs 1 0 12 .unsupportedMethod) = some .unsupportedMethod := by decide

/-! ## Algorithms and assembler -/

/-- V-S1, V-A1, V-A9. -/
theorem test_checksum :
    checksum [1, 2, 3, 4] = 0x0018000B ∧ checksum [] = 0x00000001 ∧ checksum [2, 1, 4, 3] = 0x001A000B := by decide

/-- V-S2, and [01 02 03] has no output. -/
theorem test_swapPayload :
    swapPairs [1, 2, 3, 4] = [2, 1, 4, 3] ∧ swapPairs [0xAA, 0xBB, 0xCC, 0xDD, 0xEE, 0xFF] = [0xBB, 0xAA, 0xDD, 0xCC, 0xFF, 0xEE] ∧
    (match swapPayload [1, 2, 3] with | .ok _ => false | .error f => f == .invalidPayloadLength) = true := by decide

/-- P2's envelope: header, trailer and length from its bytes. -/
theorem test_envelope :
    headerOf [0x78, 0x9C, 0x63, 0x64, 0x62, 0x66, 1, 0, 0, 0x18, 0, 0x0B] = 0x789C ∧
    trailerOf [0x78, 0x9C, 0x63, 0x64, 0x62, 0x66, 1, 0, 0, 0x18, 0, 0x0B] = 0x0018000B ∧
    bodyOf [0x78, 0x9C, 0x63, 0x64, 0x62, 0x66, 1, 0, 0, 0x18, 0, 0x0B] = [0x63, 0x64, 0x62, 0x66, 1, 0] := by decide

/-- P2 and P3 write these lines; the spec gives the words. -/
theorem test_assemble :
    assembleLine "AUPD 0x01".toList = some [0x2100000001] ∧ assembleLine "HLEN 12 ; n".toList = some [0x100000000C] ∧
    assembleLine "TCMP 0x0018000B".toList = some [0x120018000B] ∧ assembleLine "ARD".toList = some [0x2200000000] := by
  decide

/-- Rules R57, R58: an operand too large is refused; a pseudo-command expands; the directive passes a raw word. -/
theorem test_assemble_rules :
    assembleLine "AUPD 256".toList = none ∧
    assembleLine "CKSUM 1, 2".toList = some [0x2000000000, 0x2100000001, 0x2100000002, 0x2200000000] ∧
    assembleLine ".word 0x2100000100".toList = some [0x2100000100] := by decide

/-! ## Witnesses -/

/-- A state about to be given a word. -/
def given (w : CommandWord) (s : State) : State := { s with inbox := [.command w] }

theorem witness_ResetGivesStartState :
    ({ gated with inbox := [.reset] } : State).inbox = .reset :: [] ∧
    (∃ t, present .reset gated = .next t) ∧ ∃ u, exec .begin gated = .next u :=
  ⟨rfl, ⟨_, rfl⟩, ⟨_, rfl⟩⟩

theorem witness_NothingPresentedNothingChanges : gated.inbox = [] := by decide

theorem witness_StepRunsPresentedCommand :
    (given 0x21000000FF (regs 65520 65520 0 .ok)).inbox = .command 0x21000000FF :: [] ∧
    decode 0x21000000FF = some (.aupd 0xFF) := by decide

theorem witness_IllegalWordRaisesIllegalCommand :
    (given 0x0400000000 State.reset).inbox = .command 0x0400000000 :: [] ∧ legal 0x0400000000 = false ∧
    (given 0x2100000100 gated).inbox = .command 0x2100000100 :: [] ∧ legal 0x2100000100 = false := by decide

theorem witness_OpcodeRowsAreDisjoint :
    (⟨"AUPD", 0x21, .i8, 0x2100000000, 0xFFFFFFFF00⟩ : OpcodeRow) ∈ opcodeTable ∧
    (0x21000000FF#40 &&& 0xFFFFFFFF00) = 0x2100000000 := by decide

theorem witness_DecodeThenEncodeIsIdentity : decode 0x12FFFFFFFF = some (.tcmp 0xFFFFFFFF) := by decide

theorem witness_BeginCommand :
    (∃ t, exec .begin gated = .next t ∧ t.status = .ok) ∧ gated.status ≠ .ok :=
  ⟨⟨_, rfl, rfl⟩, by decide⟩

/-- For ENGF, HLEN, HEMIT, AINIT, AUPD, ARD, SWAP and the gating of the ten: a block without a fault, and a faulted one. -/
theorem witness_EngfCommand : (regs 1 0 13 .ok).status = .ok ∧ gated.status ≠ .ok := by decide

theorem witness_HlenCommand : (regs 1 0 0xFFFFFFFF .ok).status = .ok := by decide

/-- Each clause of HCHK, at lengths 6, 5 and 0 and at header values next to the accepted ones (V-H1, V-H5 to V-H17). -/
theorem witness_HchkCommand :
    ((regs 1 0 6 .ok).status = .ok ∧ 6 ≤ (regs 1 0 6 .ok).len.toNat ∧ (regs 1 0 5 .ok).len.toNat < 6 ∧
      (regs 1 0 0 .ok).len.toNat < 6 ∧ gated.status ≠ .ok) ∧
    ((0x7801#16).extractLsb' 8 4 = 8#4 ∧ (0x7801#16).extractLsb' 12 4 = 7#4 ∧ (0x7801#16).getLsbD 5 = false ∧
      (0x7801#16).toNat % 31 = 0) ∧
    (0x799C#16).extractLsb' 8 4 ≠ 8#4 ∧
    ((0x6881#16).extractLsb' 8 4 = 8#4 ∧ (0x6881#16).extractLsb' 12 4 ≠ 7#4) ∧
    ((0x78BB#16).extractLsb' 8 4 = 8#4 ∧ (0x78BB#16).extractLsb' 12 4 = 7#4 ∧ (0x78BB#16).getLsbD 5 = true) ∧
    ((0x789D#16).extractLsb' 8 4 = 8#4 ∧ (0x789D#16).extractLsb' 12 4 = 7#4 ∧ (0x789D#16).getLsbD 5 = false ∧
      (0x789D#16).toNat % 31 ≠ 0) := by decide

theorem witness_TcmpCommand :
    (regs 1 65520 0 .ok).status = .ok ∧
    (0xFFF00001#32).toNat = (regs 1 65520 0 .ok).b.toNat * 65536 + (regs 1 65520 0 .ok).a.toNat ∧
    (0x7FF00001#32).toNat ≠ (regs 1 65520 0 .ok).b.toNat * 65536 + (regs 1 65520 0 .ok).a.toNat := by decide

theorem witness_HemitCommand :
    (∃ t r, (regs 1 0 6 .ok).status = .ok ∧ 6 ≤ (regs 1 0 6 .ok).len.toNat ∧
      exec .hemit (regs 1 0 6 .ok) = .next t ∧ t.rsp = some r) ∧ gated.status ≠ .ok :=
  ⟨⟨_, _, rfl, by decide, rfl, rfl⟩, by decide⟩

theorem witness_AinitCommand : (regs 11 24 12 .ok).status = .ok ∧ gated.status ≠ .ok := by decide

theorem witness_AupdCommand :
    (regs 65520 65520 0 .ok).status = .ok ∧ (0x00000100#32) >>> 8 ≠ 0 ∧ (0x80000000#32) >>> 8 ≠ 0 ∧
    gated.status ≠ .ok := by decide

theorem witness_ArdCommand : (regs 11 24 12 .ok).status = .ok ∧ gated.status ≠ .ok := by decide

theorem witness_SlenCommand :
    State.reset.status = .ok ∧ (0x00000000#32).toNat % 2 = 0 ∧ (0xFFFFFFFE#32).toNat % 2 = 0 ∧
    (0x00000001#32).toNat % 2 = 1 ∧ (0xFFFFFFFF#32).toNat % 2 = 1 ∧
    ∃ t, exec (.slen 0xFFFFFFFF) State.reset = .next t :=
  ⟨by decide, by decide, by decide, by decide, by decide, ⟨_, rfl⟩⟩

theorem witness_SwapCommand :
    (∃ t r, State.reset.status = .ok ∧ exec (.swap 0x8001) State.reset = .next t ∧ t.rsp = some r) ∧ gated.status ≠ .ok :=
  ⟨⟨_, _, rfl, rfl, rfl⟩, by decide⟩

theorem witness_FaultedBlockIgnoresTheTen : isGated (.slen 3) = true ∧ gated.status ≠ .ok := by decide

/-- A command that writes A and B, one that writes LEN, one that writes STATUS and one that writes no register. -/
theorem witness_RegistersHaveOnlyTheirWriters :
    (∃ t, exec (.aupd 1) State.reset = .next t) ∧ (∃ t, exec (.hlen 5) State.reset = .next t) ∧
    (∃ t, exec (.slen 5) State.reset = .next t) ∧ ∃ t, exec .ard State.reset = .next t :=
  ⟨⟨_, rfl⟩, ⟨_, rfl⟩, ⟨_, rfl⟩, ⟨_, rfl⟩⟩

/-- A legal word that raises, and an illegal one. -/
theorem witness_RaisingWritesOnlyStatus :
    (∃ t, step (given 0x3000000005 State.reset) = .next t ∧ t.status ≠ .ok) ∧
    (∃ t, step (given 0x0400000000 State.reset) = .next t ∧ t.status ≠ .ok) ∧ State.reset.status = .ok :=
  ⟨⟨_, rfl, by decide⟩, ⟨_, rfl, by decide⟩, rfl⟩

/-- Reset, BEGIN, another word, an illegal word next to BEGIN's, and nothing at all. -/
theorem witness_OnlyBeginOrResetClearsAFault :
    gated.status ≠ .ok ∧ ({ gated with inbox := [.reset] } : State).inbox.head? = some .reset ∧
    (given 0x0100000000 gated).inbox.head? = some (.command 0x0100000000) ∧
    ((given 0x2100000001 gated).inbox.head? ≠ some .reset ∧
      (given 0x2100000001 gated).inbox.head? ≠ some (.command 0x0100000000)) ∧
    ((given 0x0100000001 gated).inbox.head? ≠ some .reset ∧
      (given 0x0100000001 gated).inbox.head? ≠ some (.command 0x0100000000)) ∧
    gated.inbox.head? ≠ some .reset ∧ gated.inbox.head? ≠ some (.command 0x0100000000) := by decide

/-- The largest accumulators, and a faulted state that has just answered STAT. -/
theorem witness_EveryStepKeepsInvariant :
    Invariant (given 0x21000000FF (regs 65520 65520 0 .ok)) ∧
    Invariant { given 0x3100000102 gated with rsp := some ⟨.headerChecksumMismatch, 5⟩ } ∧
    ∃ t, step (given 0x21000000FF (regs 65520 65520 0 .ok)) = .next t :=
  ⟨⟨⟨by decide, by decide⟩, fun r h => by cases h⟩, ⟨⟨by decide, by decide⟩, fun r h => by cases h; decide⟩, ⟨_, rfl⟩⟩

theorem witness_EveryCommandIsAnswered :
    (given 0x0200000000 gated).inbox = .command 0x0200000000 :: [] ∧
    (given 0x2200000000 gated).inbox = .command 0x2200000000 :: [] ∧ (0x2200000000#40) ≠ 0x0200000000 ∧
    (∃ t, step (given 0x2200000000 gated) = .next t ∧ t.status ≠ .ok) :=
  ⟨rfl, rfl, by decide, ⟨_, rfl, by decide⟩⟩

theorem witness_ReadOnlyCommandsRepeat : (Instr.slen 0xFFFFFFFE = .slen 0xFFFFFFFE ∧ (0xFFFFFFFE#32).toNat % 2 = 0) := by
  decide

/-- Length 6, and flag bytes of each class. -/
theorem witness_AcceptedHeadersAreFour :
    6 ≤ (6 : Nat) ∧ hdrCheck 6 0x78DA = .ok ∧ hdrCheck 5 0x78DA ≠ .ok ∧ (0x20#8).getLsbD 5 = true ∧
    (0x00#8).getLsbD 5 = false := by decide

theorem witness_HeaderFaultConditions :
    (∃ t, exec (.hchk 0x789D) (regs 1 0 6 .ok) = .next t) ∧ (∃ t, exec (.hchk 0x789C) (regs 1 0 5 .ok) = .next t) ∧
    (regs 1 0 6 .ok).status = .ok :=
  ⟨⟨_, rfl⟩, ⟨_, rfl⟩, rfl⟩

theorem witness_DatapathComputesAccumulatorStep : (65520#16).toNat ≤ 65520 := by decide

theorem witness_CksumComputesChecksum : (regs 254 253 77 .ok).status = .ok := by decide

/-- HLEN between two AUPDs. -/
theorem witness_InterleavedCommandsKeepAccumulation :
    Instr.begin ∉ [.aupd 1, .hlen 7, .aupd 2] ∧ Instr.ainit ∉ [.aupd 1, .hlen 7, .aupd 2] ∧
    ∃ t rs, collect (submit [.aupd 1, .hlen 7, .aupd 2]) State.reset = .next (t, rs) ∧ t.status = .ok :=
  ⟨by decide, by decide, ⟨_, _, rfl, rfl⟩⟩

theorem witness_SwapExchangesEveryPair :
    ([1, 2, 3, 4] : List Byte).length % 2 = 0 ∧ 2 * 1 + 1 < ([1, 2, 3, 4] : List Byte).length ∧
    ([1, 2, 3] : List Byte).length % 2 = 1 := by decide

theorem witness_SwapIsAnInvolution :
    swapPayload [1, 2, 3, 4] = .ok [2, 1, 4, 3] ∧ swapPayload [5, 5] = .ok [5, 5] := ⟨rfl, rfl⟩

/-- `n` bytes; with 2^32 of them, the shortest sequence that no operand can declare. -/
def zeros (n : Nat) : List Byte := List.replicate n 0

theorem zeros_too_long : 2 ^ 32 ≤ (zeros (2 ^ 32)).length := Nat.le_of_eq List.length_replicate.symm

theorem witness_SwapSequenceComputesSwap :
    (State.reset.status = .ok ∧ ([1, 2, 3, 4] : List Byte).length < 2 ^ 32 ∧
      ([1, 2, 3, 4] : List Byte).length % 2 = 0 ∧ ([1, 2, 3] : List Byte).length < 2 ^ 32 ∧
      ([1, 2, 3] : List Byte).length % 2 = 1) ∧ 2 ^ 32 ≤ (zeros (2 ^ 32)).length :=
  ⟨by decide, zeros_too_long⟩

theorem witness_EnvelopeRegionsReadBack : 6 ≤ ([0x78, 0x9C, 0, 0, 0, 1] : List Byte).length := by decide

/-- An engine that stores its input. -/
def storing : Engine := { inflate := some, deflate := some }

theorem witness_DecodeOfEncodeIsPayload : inverseEngine storing := fun p => ⟨p, rfl, rfl⟩

/-- An engine whose decompressed payloads have `n` bytes. -/
def exploding (n : Nat) : Engine := { storing with inflate := fun _ => some (zeros n) }

/-- The empty payload's envelope, one that is too short, one that is too long, and one with a payload that is too long. -/
theorem witness_HostDecodeComputesDecode :
    (([0x78, 0x9C, 0, 0, 0, 1] : List Byte).length < 2 ^ 32 ∧
      ∀ p, storing.inflate (bodyOf [0x78, 0x9C, 0, 0, 0, 1]) = some p → p.length < 2 ^ 32) ∧
    decodeEnvelope storing [0x78, 0x9C, 0, 0, 0, 1] = .ok [] ∧
    decodeEnvelope storing [0x78] = .error .malformedContainer ∧ 2 ^ 32 ≤ (zeros (2 ^ 32)).length ∧
    hdrCheck 6 (headerOf [0x78, 0x9C, 0, 0, 0, 1]) = .ok ∧
    (exploding (2 ^ 32)).inflate (bodyOf [0x78, 0x9C, 0, 0, 0, 1]) = some (zeros (2 ^ 32)) :=
  ⟨⟨by decide, fun p h => by cases h; decide⟩, rfl, rfl, zeros_too_long, by decide, rfl⟩

theorem witness_HostSwapComputesSwap :
    State.reset.status = .ok ∧ ([1, 2] : List Byte).length < 2 ^ 32 ∧ swapPayload [1, 2] = .ok [2, 1] ∧
    swapPayload [1] = .error .invalidPayloadLength ∧ 2 ^ 32 ≤ (zeros (2 ^ 32)).length :=
  ⟨rfl, by decide, rfl, rfl, zeros_too_long⟩

/-- A block without a fault, an engine that gives a body, one that fails, and a payload that is too long. -/
theorem witness_HostEncodeComputesEncode :
    State.reset.status = .ok ∧ ([1, 2] : List Byte).length < 2 ^ 32 ∧ (∃ e, encodeEnvelope storing [1, 2] = .ok e) ∧
    (encodeEnvelope { storing with deflate := fun _ => none } [1, 2] = .error .deflateFailure) ∧
    2 ^ 32 ≤ (zeros (2 ^ 32)).length :=
  ⟨rfl, by decide, ⟨_, rfl⟩, rfl, zeros_too_long⟩

theorem witness_HostConversionComputesConvert :
    (([0x78, 0x9C, 0, 0, 0, 1] : List Byte).length < 2 ^ 32 ∧
      ∀ p, storing.inflate (bodyOf [0x78, 0x9C, 0, 0, 0, 1]) = some p → p.length < 2 ^ 32) ∧
    (∃ x, convert storing [0x78, 0x9C, 0, 0, 0, 1] = .ok x) ∧ convert storing [0x78] = .error .malformedContainer ∧
    2 ^ 32 ≤ (zeros (2 ^ 32)).length ∧ hdrCheck 6 (headerOf [0x78, 0x9C, 0, 0, 0, 1]) = .ok ∧
    (exploding (2 ^ 32)).inflate (bodyOf [0x78, 0x9C, 0, 0, 0, 1]) = some (zeros (2 ^ 32)) :=
  ⟨⟨by decide, fun p h => by cases h; decide⟩, ⟨_, rfl⟩, rfl, zeros_too_long, by decide, rfl⟩

theorem witness_RunFoldsPresentedEvents :
    ∃ t rs, collect [.command 0x2100000001, .reset] { State.reset with inbox := [.reset] } = .next (t, rs) :=
  ⟨_, _, rfl⟩

/-- The first of two faults. -/
theorem witness_FirstFaultIsTheOutcome :
    clearsNothing [.command 0x3000000005, .command 0x0400000000] ∧ State.reset.status = .ok ∧
    ∃ t rs, collect [.command 0x3000000005, .command 0x0400000000] State.reset = .next (t, rs) :=
  ⟨by simp only [clearsNothing]; decide, rfl, ⟨_, _, rfl⟩⟩

/-- A conversion with a fault before BEGIN, before a reset, at the end, and one begun by the first command after reset. -/
theorem witness_ConversionsHaveIndependentOutcomes :
    clearsNothing [.command 0x3000000005] ∧
    (∃ t rs, collect [.command 0x3000000005] State.reset = .next (t, rs) ∧
      outcomesFrom true (.command 0x0100000000 :: []) { State.reset with inbox := t.inbox } = .next (.ok :: [.ok]) ∧
      outcomesFrom false [.command 0x2200000000] { State.reset with inbox := t.inbox } = .next [.ok]) ∧
    ∃ t rs, collect (.command 0x2000000000 :: [.command 0x3000000005]) State.reset = .next (t, rs) :=
  ⟨by simp only [clearsNothing]; decide, ⟨_, _, rfl, rfl, rfl⟩, ⟨_, _, rfl⟩⟩

/-- Rules R173, R174: after `SLEN 5` and a reset the first outcome is 8; with nothing after the reset there is no
second conversion. -/
theorem test_outcomes :
    (match outcomes [.command 0x3000000005, .reset] with | .next os => os | .fault _ => [] | .refused _ => []) =
      [.invalidPayloadLength] := by decide

/-- Two instances, both steppable; index 2 names none. -/
theorem witness_InstancesShareNothing :
    (∃ u, stepInstance 0 ⟨[given 0x2100000001 State.reset, State.reset]⟩ = .next u) ∧
    (∃ v, stepInstance 1 ⟨[given 0x2100000001 State.reset, State.reset]⟩ = .next v) ∧
    (∃ v, stepInstance 2 ⟨[given 0x2100000001 State.reset, State.reset]⟩ = .next v) ∧ (0 : Nat) ≠ 1 :=
  ⟨⟨_, rfl⟩, ⟨_, rfl⟩, ⟨_, rfl⟩, by decide⟩

theorem witness_AssemblerAgreesWithEncoder : assembleCommand "AUPD".toList [255] = some 0x21000000FF := by decide

end Sys2Proof.Tests
end

section
/-! SUPPORT. The statements about the system family NOP, BEGIN, STAT, ENGF (40_system.md). -/

namespace Sys2Proof.Machine

/-- Rule R70 (a): of the commands, BEGIN alone changes the STATUS of a faulted block. -/
theorem effect_status_of_faulted {i : Instr} {s : State} (h : s.status ≠ .ok) (hi : i ≠ .begin) :
    (effect i s).status = s.status := by
  rw [effect_of_faulted h]
  cases i with
  | begin => exact absurd rfl hi
  | _ => rfl

/-- Rule R72: a command that clears a fault is BEGIN. -/
theorem eq_begin_of_exec_clears {i : Instr} {s t : State} (hexec : exec i s = .next t) (hs : s.status ≠ .ok)
    (ht : t.status = .ok) : i = .begin := by
  have heff : effect i s = t := by simpa [exec_eq_effect] using hexec
  subst heff
  by_contra hi
  exact hs (effect_status_of_faulted hs hi ▸ ht)

/-- Rule R74, no fault recorded: ENGF raises the fault that `sel` chooses. -/
theorem exec_engf_of_ok {s : State} (h : s.status = .ok) (sel : BitVec 1) :
    exec (.engf sel) s = .next (raise (if sel = 0 then .inflateFailure else .deflateFailure) s) :=
  congrArg Host.Outcome.next (whenClear_of_ok h _)

/-- Rule R74, faulted: ENGF is ignored whatever `sel` is. -/
theorem exec_engf_of_faulted {s : State} (h : s.status ≠ .ok) (sel : BitVec 1) :
    exec (.engf sel) s = .next { s with rsp := some ⟨s.status, 0⟩ } :=
  congrArg Host.Outcome.next (whenClear_of_faulted h _)

/-- Settles O10: NOP is a response with datum 0 and nothing else. -/
theorem nopCommand : Obligations.NopCommand := by
  refine ⟨by decide, by decide, fun s => ?_⟩
  rw [exec_eq_effect, effect, respond_eq]

/-- Settles O11: BEGIN's next state from the equation for `S0`; that no other command clears a fault from the STATUS each
leaves on a faulted block. -/
theorem beginCommand : Obligations.BeginCommand := by
  refine ⟨by decide, by decide, fun s => ?_, fun _ _ _ => eq_begin_of_exec_clears⟩
  rw [exec_eq_effect, effect, toS0_eq, respond_eq]

/-- Settles O12: STAT is a response whose datum is the zero-extended code, and nothing else. -/
theorem statCommand : Obligations.StatCommand := by
  refine ⟨by decide, by decide, fun s => ?_⟩
  rw [exec_eq_effect, effect, respond_eq, statusData]

/-- Settles O13: the raised fault is recorded on a block without a fault (R152), and abort gating keeps an earlier one. -/
theorem engfCommand : Obligations.EngfCommand := by
  refine ⟨by decide, by decide, fun s h => ?_, fun s h => ?_, fun sel s h => exec_engf_of_faulted h sel⟩
  · rw [exec_engf_of_ok h, raise_of_ok h, if_pos rfl]
  · rw [exec_engf_of_ok h, raise_of_ok h, if_neg (by decide)]

end Sys2Proof.Machine
end

section
/-! SUPPORT. The statements about the container family HLEN, HCHK, TCMP, HEMIT (41_container.md). -/

namespace Sys2Proof.Machine

/-- Rule R70 (a): a faulted block ignores each of the ten gated commands. -/
theorem exec_gated_of_faulted {i : Instr} {s : State} (hi : isGated i = true) (h : s.status ≠ .ok) :
    exec i s = .next { s with rsp := some ⟨s.status, 0⟩ } := by
  rw [exec_eq_effect, effect_of_faulted h]
  cases i with
  | begin | stat => cases hi
  | _ => rfl

/-! ## HCHK -/

/-- Rules R50, R51: the word of HCHK has its reserved bits at 0 above the header. -/
theorem encode_hchk (h : Half) : encode (.hchk h) = 0x11#8 ++ 0#16 ++ h := by
  change 0x11#8 ++ h.setWidth 32 = _
  rw [BitVec.append_assoc, BitVec.setWidth_eq_append (by decide)]
  rfl

/-- A nibble of CMF, as the field of the header value that rule R91 names. -/
theorem highByte_nibble (h : Half) {k : Nat} (hk : k ≤ 4) :
    (highByte h).extractLsb' k 4 = h.extractLsb' (8 + k) 4 := by
  apply BitVec.eq_of_getLsbD_eq
  intro j hj
  have hkj : k + j < 8 := by omega
  simp [highByte, hkj, Nat.add_assoc]

/-- FDICT, as the bit of the header value that rule R91 names. -/
theorem lowByte_fdict (h : Half) : (lowByte h).getLsbD fdictBit = h.getLsbD 5 := by
  simp [lowByte, fdictBit]

/-- Rule R80: the length test comes first, whatever the header. -/
theorem hdrCheck_of_lt {n : Nat} (hn : n < 6) (h : Half) : hdrCheck n h = .malformedContainer := if_pos hn

/-- Rule R80's tests on the header value in the bit fields of rule R91, once the length suffices. -/
theorem hdrCheck_of_le {n : Nat} (hn : 6 ≤ n) (h : Half) :
    hdrCheck n h =
      if h.extractLsb' 8 4 ≠ 8#4 then .unsupportedMethod
      else if h.extractLsb' 12 4 ≠ 7#4 then .unsupportedWindowSize
      else if h.getLsbD 5 = true then .unsupportedFeature
      else if h.toNat % 31 ≠ 0 then .headerChecksumMismatch
      else .ok := by
  have hlen : ¬ n < minEnvLen := Nat.not_lt.mpr hn
  rw [hdrCheck, if_neg hlen, highByte_nibble h (by decide), highByte_nibble h (by decide), lowByte_fdict]
  rfl

/-- Rule R91, no fault recorded: STATUS takes the verdict of the header check, the datum is 0. -/
theorem exec_hchk_of_ok {s : State} {h : Half} {v : Status} (hs : s.status = .ok) (hv : hdrCheck s.len.toNat h = v) :
    exec (.hchk h) s = .next { s with status := v, rsp := some ⟨v, 0⟩ } := by
  subst hv
  rw [exec_eq_effect, effect_of_ok hs]

/-- Writing OK to a STATUS that is OK changes nothing. -/
theorem status_ok_eq_self {s : State} (hs : s.status = .ok) (r : Option Response) :
    { s with status := .ok, rsp := r } = { s with rsp := r } := by
  rw [← hs]

/-- Rule R91: a header that passes leaves every register. -/
theorem exec_hchk_of_pass {s : State} {h : Half} (hs : s.status = .ok) (hv : hdrCheck s.len.toNat h = .ok) :
    exec (.hchk h) s = .next { s with rsp := some ⟨.ok, 0⟩ } := by
  rw [exec_hchk_of_ok hs hv, status_ok_eq_self hs]

/-! ## TCMP -/

/-- Rules R92, R104: `(B << 16) | A` as a number. -/
theorem pack_toNat (a b : Half) : (pack a b).toNat = b.toNat * 65536 + a.toNat := by
  have ha : a.toNat < 2 ^ 16 := a.isLt
  have hb : b.toNat < 2 ^ 16 := b.isLt
  have hb32 : b.toNat <<< 16 < 2 ^ 32 := by
    rw [Nat.shiftLeft_eq]
    omega
  rw [pack, BitVec.toNat_or, BitVec.toNat_shiftLeft, BitVec.toNat_setWidth_of_le (by decide),
    BitVec.toNat_setWidth_of_le (by decide), Nat.mod_eq_of_lt hb32, ← Nat.shiftLeft_add_eq_or_of_lt ha,
    Nat.shiftLeft_eq]

/-- Rule R83 on the packed accumulators: the trailer passes exactly when it is their number. -/
theorem trlCheck_pack (w : Word) (a b : Half) :
    trlCheck w (pack a b) = if w.toNat = b.toNat * 65536 + a.toNat then .ok else .payloadChecksumMismatch := by
  simp only [trlCheck, ← BitVec.toNat_inj, pack_toNat]

/-- Rule R92, no fault recorded: STATUS takes the verdict of the trailer check, the datum is 0. -/
theorem exec_tcmp_of_ok {s : State} {w : Word} {v : Status} (hs : s.status = .ok) (hv : trlCheck w (pack s.a s.b) = v) :
    exec (.tcmp w) s = .next { s with status := v, rsp := some ⟨v, 0⟩ } := by
  subst hv
  rw [exec_eq_effect, effect_of_ok hs]

/-! ## HEMIT -/

/-- Rule R93: `{0x78, FLG_CONST}` zero-extended is `0x7800 | FLG_CONST`. -/
theorem zextHalf_emittedHeader (f : FlgConst) :
    zextHalf (emittedHeader f) = 0x00007800 ||| (flgByte f).setWidth 32 := by
  cases f <;> decide

/-- Rule R85: the four values of the emitted header. -/
theorem emittedDatum_mem (f : FlgConst) :
    (0x00007800 ||| (flgByte f).setWidth 32 : Word) ∈ [0x00007801, 0x0000785E, 0x0000789C, (0x000078DA : Word)] := by
  cases f <;> decide

/-- Rules R80, R84: each emitted header passes the header check at a sufficient length. -/
theorem hdrCheck_emittedHeader {n : Nat} (hn : 6 ≤ n) (f : FlgConst) : hdrCheck n (emittedHeader f) = .ok := by
  rw [hdrCheck_of_le hn]
  cases f <;> decide

/-- Rule R93, no fault recorded: the datum is the emitted header, no register is written. -/
theorem exec_hemit_of_ok {s : State} (hs : s.status = .ok) :
    exec .hemit s = .next { s with rsp := some ⟨.ok, zextHalf (emittedHeader Config.flgConst)⟩ } := by
  rw [exec_eq_effect, effect_of_ok hs]

/-! ## The statements -/

/-- Settles O14: HLEN is a write of LEN and a response with datum 0. -/
theorem hlenCommand : Obligations.HlenCommand := by
  refine ⟨fun w => rfl, fun w s hs => ?_⟩
  rw [exec_eq_effect, effect_of_ok hs]

/-- Settles O15: each clause is the verdict of the header check in rule R91's bit fields; faulted, HCHK is gated. -/
theorem hchkCommand : Obligations.HchkCommand := by
  refine ⟨encode_hchk, fun h s hs hn hm hw hf hc => exec_hchk_of_pass hs ?_,
    fun h s hs hn => exec_hchk_of_ok hs ?_, fun h s hs hn hm => exec_hchk_of_ok hs ?_,
    fun h s hs hn hm hw => exec_hchk_of_ok hs ?_, fun h s hs hn hm hw hf => exec_hchk_of_ok hs ?_,
    fun h s hs hn hm hw hf hc => exec_hchk_of_ok hs ?_, fun h s hs => exec_gated_of_faulted rfl hs⟩
  · rw [hdrCheck_of_le hn, if_neg (not_not.mpr hm), if_neg (not_not.mpr hw), if_neg (Bool.eq_false_iff.mp hf),
      if_neg (not_not.mpr hc)]
  · exact hdrCheck_of_lt hn h
  · rw [hdrCheck_of_le hn, if_pos hm]
  · rw [hdrCheck_of_le hn, if_neg (not_not.mpr hm), if_pos hw]
  · rw [hdrCheck_of_le hn, if_neg (not_not.mpr hm), if_neg (not_not.mpr hw), if_pos hf]
  · rw [hdrCheck_of_le hn, if_neg (not_not.mpr hm), if_neg (not_not.mpr hw), if_neg (Bool.eq_false_iff.mp hf),
      if_pos hc]

/-- Settles O16: the verdict of the trailer check on the number `B * 65536 + A`. -/
theorem tcmpCommand : Obligations.TcmpCommand := by
  refine ⟨fun w => rfl, fun w s hs hw => ?_, fun w s hs hw => exec_tcmp_of_ok hs ?_⟩
  · rw [exec_tcmp_of_ok hs (by rw [trlCheck_pack, if_pos hw]), status_ok_eq_self hs]
  · rw [trlCheck_pack, if_neg hw]

/-- Settles O17: the datum by cases on `FLG_CONST`; it is the emitted header again after truncation to 16 bits, and that
passes the header check. -/
theorem hemitCommand : Obligations.HemitCommand := by
  refine ⟨by decide, fun s hs => ?_, emittedDatum_mem _, fun s t r hs hn ht hr => ?_,
    fun s hs => exec_gated_of_faulted rfl hs⟩
  · rw [exec_hemit_of_ok hs, zextHalf_emittedHeader]
  · rw [exec_hemit_of_ok hs] at ht
    cases ht
    cases hr
    have hdatum : (zextHalf (emittedHeader Config.flgConst)).setWidth 16 = emittedHeader Config.flgConst := by
      simp [zextHalf]
    rw [hdatum]
    exact exec_hchk_of_pass hs (hdrCheck_emittedHeader hn _)

end Sys2Proof.Machine
end

section
/-! SUPPORT. The statements about the checksum family AINIT, AUPD, ARD (42_adler32.md). -/

namespace Sys2Proof.Machine

/-! ## AUPD -/

/-- Rules R50, R51: the word of AUPD has its reserved bits at 0 above the byte. -/
theorem encode_aupd (d : Byte) : encode (.aupd d) = 0x21#8 ++ 0#24 ++ d := by
  change 0x21#8 ++ d.setWidth 32 = _
  rw [BitVec.append_assoc, BitVec.setWidth_eq_append (by decide)]
  rfl

/-- Rule R52: of the four families the checksum family alone knows op 0x21, and reads AUPD's operand. -/
theorem decode_op_aupd (arg : Word) : decode (0x21#8 ++ arg) = (takeOperand 8 arg).map .aupd := by
  rw [decode, opField_append, argField_append]
  exact Option.or_none

/-- Rule R54 (b): an operand is refused when a reserved bit above it is set. -/
theorem takeOperand_of_reserved {n : Nat} {arg : Word} (h : arg >>> n ≠ 0) : takeOperand n arg = none := if_neg h

/-- Rule R107, no fault recorded: A and B take the two sums of rule R103, LEN and STATUS stay. -/
theorem exec_aupd_of_ok {s : State} (hs : s.status = .ok) (d : Byte) :
    exec (.aupd d) s = .next { s with
      a := (adlStep (s.a, s.b) d).1, b := (adlStep (s.a, s.b) d).2, rsp := some ⟨.ok, 0⟩ } := by
  rw [exec_eq_effect, effect_of_ok hs]

/-! ## ARD -/

/-- Rules R104, R108: `(B << 16) | A` is B's bits above A's. -/
theorem pack_eq_append (a b : Half) : pack a b = b ++ a := by
  apply BitVec.eq_of_toNat_eq
  rw [pack_toNat, BitVec.toNat_append, ← Nat.shiftLeft_add_eq_or_of_lt a.isLt, Nat.shiftLeft_eq]

/-! ## The statements -/

/-- Settles O18: AINIT is a write of A and of B and a response with datum 0; faulted, it is gated. -/
theorem ainitCommand : Obligations.AinitCommand := by
  refine ⟨by decide, fun s hs => ?_, fun s hs => exec_gated_of_faulted rfl hs⟩
  rw [exec_eq_effect, effect_of_ok hs]

/-- Settles O19: the two sums are the accumulator step's (R103), and a set reserved bit leaves the decoder no operand. -/
theorem aupdCommand : Obligations.AupdCommand := by
  refine ⟨encode_aupd, fun d s hs => exec_aupd_of_ok hs d, fun arg harg => ?_,
    fun d s hs => exec_gated_of_faulted rfl hs⟩
  rw [decode_op_aupd, takeOperand_of_reserved harg, Option.map_none]

/-- Settles O20: ARD is a response with the packed accumulators, and packing puts B above A; faulted, it is gated. -/
theorem ardCommand : Obligations.ArdCommand := by
  refine ⟨by decide, fun s hs => ?_, fun s hs => exec_gated_of_faulted rfl hs⟩
  rw [exec_eq_effect, effect_of_ok hs, pack_eq_append]

end Sys2Proof.Machine
end

section
/-! SUPPORT. The statements about the swap family SLEN, SWAP and the function they compute (43_byte_pair_swap.md). -/

namespace Sys2Proof.Machine

/-! ## The swap of a payload -/

@[simp] theorem swapPairs_nil : swapPairs [] = [] := rfl

@[simp] theorem swapPairs_cons_cons (x y : Byte) (p : List Byte) :
    swapPairs (x :: y :: p) = y :: x :: swapPairs p := rfl

theorem length_cons_cons_mod_two (x y : Byte) (p : List Byte) : (x :: y :: p).length % 2 = p.length % 2 :=
  Nat.add_mod_right p.length 2

/-- The pairs of `p` are those of `x :: y :: p` after the first. -/
theorem pair_lt_length_cons_cons (x y : Byte) (p : List Byte) (k : Nat) :
    2 * (k + 1) + 1 < (x :: y :: p).length ↔ 2 * k + 1 < p.length := by
  simp only [List.length_cons]
  omega

/-- Rule R120: the swap keeps the length. -/
theorem length_swapPairs (p : List Byte) (hp : p.length % 2 = 0) : (swapPairs p).length = p.length := by
  induction p using List.twoStepInduction with
  | nil => rfl
  | singleton => cases hp
  | cons_cons x y p ih => simp [ih (length_cons_cons_mod_two x y p ▸ hp)]

/-- Rule R120's two equations; a last byte without a partner does not matter to them. -/
theorem getElem?_swapPairs (p : List Byte) (k : Nat) (hk : 2 * k + 1 < p.length) :
    (swapPairs p)[2 * k]? = p[2 * k + 1]? ∧ (swapPairs p)[2 * k + 1]? = p[2 * k]? := by
  induction k generalizing p with
  | zero =>
    match p with
    | x :: y :: p => exact ⟨rfl, rfl⟩
  | succ k ih =>
    match p with
    | x :: y :: p => exact ih p ((pair_lt_length_cons_cons x y p k).mp hk)

/-- Rule R122: swapping twice restores every byte. -/
theorem swapPairs_swapPairs (p : List Byte) (hp : p.length % 2 = 0) : swapPairs (swapPairs p) = p := by
  induction p using List.twoStepInduction with
  | nil => rfl
  | singleton => cases hp
  | cons_cons x y p ih => simp [ih (length_cons_cons_mod_two x y p ▸ hp)]

/-- A sequence's pairs have equal bytes when the first has and the others have. -/
theorem forall_pairs_cons_cons (x y : Byte) (p : List Byte) :
    (∀ k, 2 * k + 1 < (x :: y :: p).length → (x :: y :: p)[2 * k]? = (x :: y :: p)[2 * k + 1]?) ↔
      x = y ∧ ∀ k, 2 * k + 1 < p.length → p[2 * k]? = p[2 * k + 1]? := by
  rw [← Nat.and_forall_add_one]
  exact and_congr (by simp) (forall_congr' fun k => imp_congr (pair_lt_length_cons_cons x y p k) Iff.rfl)

/-- Rule R122: a sequence is a fixed point of the swap exactly when the two bytes of every pair are equal. -/
theorem swapPairs_eq_self_iff (p : List Byte) (hp : p.length % 2 = 0) :
    swapPairs p = p ↔ ∀ k, 2 * k + 1 < p.length → p[2 * k]? = p[2 * k + 1]? := by
  induction p using List.twoStepInduction with
  | nil => simp
  | singleton => cases hp
  | cons_cons x y p ih =>
    rw [forall_pairs_cons_cons, ← ih (length_cons_cons_mod_two x y p ▸ hp), swapPairs_cons_cons]
    simp only [List.cons.injEq, eq_comm (a := y) (b := x), and_self_left]

/-- Rule R120: a payload of even length is swapped. -/
theorem swapPayload_of_even {p : List Byte} (hp : p.length % 2 = 0) : swapPayload p = .ok (swapPairs p) := if_pos hp

/-- Rule R123: a payload of odd length gives no output. -/
theorem swapPayload_of_odd {p : List Byte} (hp : p.length % 2 = 1) : swapPayload p = .error .invalidPayloadLength :=
  if_neg (by omega)

/-- Rules R120, R123: what has a swap has even length, and the swap is the exchange of its pairs. -/
theorem swapPayload_eq_ok_iff {p q : List Byte} : swapPayload p = .ok q ↔ p.length % 2 = 0 ∧ swapPairs p = q := by
  rcases Nat.mod_two_eq_zero_or_one p.length with hp | hp
  · simp [swapPayload_of_even hp, hp]
  · simp [swapPayload_of_odd hp, hp]

/-- Rule R122 with the length precondition: the swap of a swap is the payload. -/
theorem swapPayload_of_swapped {p q : List Byte} (h : swapPayload p = .ok q) : swapPayload q = .ok p := by
  obtain ⟨hp, rfl⟩ := swapPayload_eq_ok_iff.mp h
  exact swapPayload_eq_ok_iff.mpr ⟨by rw [length_swapPairs p hp, hp], swapPairs_swapPairs p hp⟩

/-! ## The swap of one pair -/

/-- Rule R121: the masks and shifts of `swap_pair`, as a number. -/
theorem swapPair_toNat (h : Half) : (swapPair h).toNat = h.toNat % 256 * 256 + h.toNat / 256 := by
  have hlt : h.toNat < 2 ^ 16 := h.isLt
  have hhigh : h.toNat >>> 8 < 2 ^ 8 := by
    rw [Nat.shiftRight_eq_div_pow]
    omega
  have hlow : (h.toNat % 2 ^ 8) <<< 8 < 2 ^ 16 := by
    rw [Nat.shiftLeft_eq]
    omega
  have hmask : h.toNat &&& (0xFF : Half).toNat = h.toNat % 2 ^ 8 := Nat.and_two_pow_sub_one_eq_mod _ 8
  rw [swapPair, BitVec.toNat_or, BitVec.toNat_shiftLeft, BitVec.toNat_ushiftRight, BitVec.toNat_and, hmask,
    Nat.mod_eq_of_lt hlow, ← Nat.shiftLeft_add_eq_or_of_lt hhigh, Nat.shiftLeft_eq, Nat.shiftRight_eq_div_pow]
  rfl

/-- Rule R121: `swap_pair` joins the two bytes in the other order. -/
theorem swapPair_eq_joinBytes (h : Half) : swapPair h = joinBytes (lowByte h) (highByte h) := by
  apply BitVec.eq_of_toNat_eq
  rw [swapPair_toNat, joinBytes_toNat, lowByte_toNat, highByte_toNat]

/-- Rule R121: `swap_pair({x, y}) = {y, x}`. -/
theorem swapPair_append (x y : Byte) : swapPair (x ++ y) = y ++ x := by
  change swapPair (joinBytes x y) = _
  rw [swapPair_eq_joinBytes, lowByte_joinBytes, highByte_joinBytes, joinBytes]

/-- Rule R122: `swap_pair` is its own inverse. -/
@[simp] theorem swapPair_swapPair (h : Half) : swapPair (swapPair h) = h := by
  simp [swapPair_eq_joinBytes]

/-- Rule R122: a pair is a fixed point of `swap_pair` exactly when its bytes are equal. -/
theorem swapPair_append_eq_self_iff (x y : Byte) : swapPair (x ++ y) = x ++ y ↔ x = y := by
  rw [swapPair_append]
  constructor
  · intro h
    calc x = highByte (joinBytes x y) := (highByte_joinBytes x y).symm
      _ = highByte (joinBytes y x) := congrArg highByte h.symm
      _ = y := highByte_joinBytes y x
  · rintro rfl
    rfl

/-! ## SLEN -/

/-- Rule R124, no fault recorded: STATUS takes the verdict on the operand's parity, the datum is 0. -/
theorem exec_slen_of_ok {s : State} {w : Word} {v : Status} (hs : s.status = .ok)
    (hv : (if w.toNat % 2 = 1 then Status.invalidPayloadLength else .ok) = v) :
    exec (.slen w) s = .next { s with status := v, rsp := some ⟨v, 0⟩ } := by
  have hbit : w.getLsbD 0 = decide (w.toNat % 2 = 1) := Nat.testBit_zero w.toNat
  subst hv
  rw [exec_eq_effect, effect_of_ok hs]
  simp only [hbit, decide_eq_true_eq]

/-- Rules R123, R124: an odd operand records the fault and writes no other register. -/
theorem exec_slen_of_odd {s : State} {w : Word} (hs : s.status = .ok) (hw : w.toNat % 2 = 1) :
    exec (.slen w) s =
      .next { s with status := .invalidPayloadLength, rsp := some ⟨.invalidPayloadLength, 0⟩ } :=
  exec_slen_of_ok hs (if_pos hw)

/-- Rule R124: an even operand passes and writes no register. -/
theorem exec_slen_of_even {s : State} {w : Word} (hs : s.status = .ok) (hw : w.toNat % 2 = 0) :
    exec (.slen w) s = .next { s with rsp := some ⟨.ok, 0⟩ } := by
  rw [exec_slen_of_ok hs (if_neg (by omega)), status_ok_eq_self hs]

/-! ## SWAP -/

/-- Rule R55: sixteen zero bits above a 16-bit result. -/
theorem zextHalf_eq_append (h : Half) : zextHalf h = 0#16 ++ h := BitVec.setWidth_eq_append (by decide)

/-- Rules R50, R51: the word of SWAP has its reserved bits at 0 above the group. -/
theorem encode_swap (h : Half) : encode (.swap h) = 0x31#8 ++ 0#16 ++ h := by
  change 0x31#8 ++ zextHalf h = _
  rw [zextHalf_eq_append, BitVec.append_assoc]
  rfl

/-- Rule R125, no fault recorded: the datum is the swapped pair, no register is written. -/
theorem exec_swap_of_ok {s : State} (hs : s.status = .ok) (h : Half) :
    exec (.swap h) s = .next { s with rsp := some ⟨.ok, zextHalf (swapPair h)⟩ } := by
  rw [exec_eq_effect, effect_of_ok hs, swapPair_eq_joinBytes]

/-- Rules R122, R125: a SWAP on a swapped pair gives the pair back. -/
theorem exec_swap_swapPair {s : State} (hs : s.status = .ok) (h : Half) :
    exec (.swap (swapPair h)) s = .next { s with rsp := some ⟨.ok, zextHalf h⟩ } := by
  rw [exec_swap_of_ok hs, swapPair_swapPair]

/-- The low half of a zero-extended result is the result (rule R125's `data[15:0]`). -/
theorem setWidth_zextHalf (h : Half) : (zextHalf h).setWidth 16 = h := by
  simp [zextHalf]

/-! ## The statements -/

/-- Settles O38: the length and the two equations by induction over pairs; an odd length gives no output. -/
theorem swapExchangesEveryPair : Obligations.SwapExchangesEveryPair :=
  ⟨fun p hp => ⟨swapPairs p, swapPayload_of_even hp, length_swapPairs p hp, getElem?_swapPairs p⟩,
    fun _ => swapPayload_of_odd⟩

/-- Settles O39: as the swap of `q` is `p`, it is `q` exactly when `p` is a fixed point. -/
theorem swapIsAnInvolution : Obligations.SwapIsAnInvolution := by
  refine ⟨fun p q => swapPayload_of_swapped, swapPair_swapPair, fun p q h => ?_, swapPair_append_eq_self_iff⟩
  have hback := swapPayload_of_swapped h
  obtain ⟨hp, rfl⟩ := swapPayload_eq_ok_iff.mp h
  rw [hback, ← swapPairs_eq_self_iff p hp, Except.ok.injEq, eq_comm]

/-- Settles O21: the verdict is the operand's parity, and the fault it records gates every SWAP. -/
theorem slenCommand : Obligations.SlenCommand := by
  refine ⟨fun w => rfl, fun w s => exec_slen_of_even, fun w s => exec_slen_of_odd, fun w h s t hs hw ht => ?_⟩
  rw [exec_slen_of_odd hs hw] at ht
  cases ht
  exact exec_gated_of_faulted rfl (by simp)

/-- Settles O22: the datum is `swap_pair` of the operand, which is its own inverse (R122); faulted, SWAP is gated. -/
theorem swapCommand : Obligations.SwapCommand := by
  refine ⟨encode_swap, fun x y s hs => ?_, fun h s t r hs ht hr => ?_, fun h s hs => exec_gated_of_faulted rfl hs⟩
  · rw [exec_swap_of_ok hs, swapPair_append, zextHalf_eq_append]
  · rw [exec_swap_of_ok hs] at ht
    cases ht
    cases hr
    rw [setWidth_zextHalf]
    exact exec_swap_swapPair hs h

end Sys2Proof.Machine
end

section
/-! SUPPORT. The statement about the faults of the header check (60_exceptions.md, rules R142 to R146). -/

namespace Sys2Proof.Machine

/-- Rules R145, R146: `h[15:8]` is 0x78 exactly when the method nibble is 8 and the window-size nibble is 7. -/
theorem cmf_eq_iff_nibbles (h : Half) :
    h.extractLsb' 8 8 = 0x78#8 ↔ h.extractLsb' 8 4 = 8#4 ∧ h.extractLsb' 12 4 = 7#4 := by
  have hjoin : h.extractLsb' 12 4 ++ h.extractLsb' 8 4 = h.extractLsb' 8 8 :=
    BitVec.extractLsb'_append_extractLsb'_eq_extractLsb' rfl
  constructor
  · intro hcmf
    have hbyte : highByte h = 0x78#8 := hcmf
    rw [← highByte_nibble h (k := 0) (by decide), ← highByte_nibble h (k := 4) (by decide), hbyte]
    decide
  · rintro ⟨hm, hw⟩
    rw [← hjoin, hm, hw]
    rfl

/-- Rule R91, no fault recorded: STATUS after HCHK is the verdict of the header check. -/
theorem status_of_exec_hchk {s t : State} {h : Half} (hs : s.status = .ok) (ht : exec (.hchk h) s = .next t) :
    t.status = hdrCheck s.len.toNat h := by
  rw [exec_hchk_of_ok hs rfl] at ht
  cases ht
  rfl

/-- Settles O33: STATUS is the verdict of the header check, and each failing test of rule R80's chain, in its order, makes
one condition true and the other four false. -/
theorem headerFaultConditions : Obligations.HeaderFaultConditions := by
  intro s t h hs ht
  rw [status_of_exec_hchk hs ht, cmf_eq_iff_nibbles]
  rcases Nat.lt_or_ge s.len.toNat 6 with hn | hn
  · simp [hdrCheck_of_lt hn, hn]
  · have hlen : ¬ s.len.toNat < 6 := Nat.not_lt.mpr hn
    rw [hdrCheck_of_le hn]
    by_cases hm : h.extractLsb' 8 4 = 8#4
    case neg => simp [hn, hlen, hm]
    by_cases hw : h.extractLsb' 12 4 = 7#4
    case neg => simp [hn, hlen, hm, hw]
    cases h.getLsbD 5 with
    | true => simp [hn, hlen, hm, hw]
    | false =>
      by_cases hc : h.toNat % 31 = 0
      · simp [hlen, hm, hw, hc]
      · simp [hn, hlen, hm, hw, hc]

end Sys2Proof.Machine
end

section
/-! SUPPORT. The statements about command words: decoder and encoder, opcode table, assembler (30_encoding.md). -/

namespace Sys2Proof

/-! ## Decoder and encoder -/

theorem takeOperand_zero_zero : takeOperand 0 0#32 = some 0#0 := by decide

theorem takeOperand_all (w : Word) : takeOperand 32 w = some w := by
  simpa using takeOperand_setWidth (Nat.le_refl 32) w

/-- Rules R50 to R53: the decoder gives back the command whose operation code and argument it is given. -/
theorem decodeFields_opcode_argument (i : Instr) : decodeFields (opcode i) (argument i) = some i := by
  cases i <;>
    simp [decodeFields, decodeSystem, decodeContainer, decodeChecksum, decodeSwap, opcode, argument,
      takeOperand_zero_zero, takeOperand_setWidth, takeOperand_all]

/-- Rules R50 to R53: no bit of an operand is lost on the way through a command word. -/
theorem decode_encode (i : Instr) : decode (encode i) = some i := by
  rw [decode, opField_encode, argField_encode, decodeFields_opcode_argument]

/-- What a part of the decoder reads from the fields `op` and `arg` is a command with just these fields. -/
def ReadsFields (op : Byte) (arg : Word) (o : Option Instr) : Prop :=
  ∀ i, o = some i → opcode i = op ∧ argument i = arg

theorem ReadsFields.of_none (op : Byte) (arg : Word) : ReadsFields op arg none := nofun

theorem ReadsFields.or {op : Byte} {arg : Word} {o o' : Option Instr} (h : ReadsFields op arg o)
    (h' : ReadsFields op arg o') : ReadsFields op arg (o.or o') := by
  intro i hi
  rcases Option.or_eq_some_iff.mp hi with ho | ⟨-, ho'⟩
  · exact h i ho
  · exact h' i ho'

/-- One entry of a family's decoder, and the entries after it. -/
theorem ReadsFields.entry {n : Nat} {op c : Byte} {arg : Word} {f : BitVec n → Instr} {rest : Option Instr}
    (hop : ∀ x, opcode (f x) = c) (harg : ∀ x, argument (f x) = x.setWidth 32) (hrest : ReadsFields op arg rest) :
    ReadsFields op arg (if op = c then (takeOperand n arg).map f else rest) := by
  intro i hi
  split_ifs at hi with hc
  · obtain ⟨x, hx, rfl⟩ := Option.map_eq_some_iff.mp hi
    exact ⟨(hop x).trans hc.symm, (harg x).trans (takeOperand_eq_some hx)⟩
  · exact hrest i hi

/-- A format without operand has an `arg` of 0. -/
theorem zero_eq_setWidth_noOperand (x : BitVec 0) : 0#32 = x.setWidth 32 := by
  rw [BitVec.of_length_zero (x := x)]
  rfl

theorem setWidth_word (w : Word) : w = w.setWidth 32 := (BitVec.setWidth_eq w).symm

theorem readsFields_decodeSystem (op : Byte) (arg : Word) : ReadsFields op arg (decodeSystem op arg) :=
  .entry (fun _ => rfl) zero_eq_setWidth_noOperand <| .entry (fun _ => rfl) zero_eq_setWidth_noOperand <|
    .entry (fun _ => rfl) zero_eq_setWidth_noOperand <| .entry (fun _ => rfl) (fun _ => rfl) <| .of_none op arg

theorem readsFields_decodeContainer (op : Byte) (arg : Word) : ReadsFields op arg (decodeContainer op arg) :=
  .entry (fun _ => rfl) setWidth_word <| .entry (fun _ => rfl) (fun _ => rfl) <|
    .entry (fun _ => rfl) setWidth_word <| .entry (fun _ => rfl) zero_eq_setWidth_noOperand <| .of_none op arg

theorem readsFields_decodeChecksum (op : Byte) (arg : Word) : ReadsFields op arg (decodeChecksum op arg) :=
  .entry (fun _ => rfl) zero_eq_setWidth_noOperand <| .entry (fun _ => rfl) (fun _ => rfl) <|
    .entry (fun _ => rfl) zero_eq_setWidth_noOperand <| .of_none op arg

theorem readsFields_decodeSwap (op : Byte) (arg : Word) : ReadsFields op arg (decodeSwap op arg) :=
  .entry (fun _ => rfl) setWidth_word <| .entry (fun _ => rfl) (fun _ => rfl) <| .of_none op arg

theorem readsFields_decodeFields (op : Byte) (arg : Word) : ReadsFields op arg (decodeFields op arg) :=
  (readsFields_decodeSystem op arg).or <| (readsFields_decodeContainer op arg).or <|
    (readsFields_decodeChecksum op arg).or (readsFields_decodeSwap op arg)

/-- Rules R50 to R54: a word that decodes to a command is that command's word. -/
theorem encode_of_decode {w : CommandWord} {i : Instr} (h : decode w = some i) : encode i = w := by
  obtain ⟨hop, harg⟩ := readsFields_decodeFields _ _ i h
  rw [encode, hop, harg, append_fields]

/-- Rules R50 to R54: exactly one word stands for a command. -/
theorem decode_eq_some_iff {w : CommandWord} {i : Instr} : decode w = some i ↔ w = encode i :=
  ⟨fun h => (encode_of_decode h).symm, fun h => h ▸ decode_encode i⟩

/-- Settles O8: the fields of the encoded word are the command's operation code and argument. -/
theorem encodeThenDecodeIsIdentity : Obligations.EncodeThenDecodeIsIdentity := decode_encode

/-- Settles O9: each entry of the decoder reads a command whose fields are those of the word. -/
theorem decodeThenEncodeIsIdentity : Obligations.DecodeThenEncodeIsIdentity := fun _ _ => encode_of_decode

/-- Settles O7: the decoder evaluated on each word. -/
theorem sampleWordsDecode : Obligations.SampleWordsDecode := by
  unfold Obligations.SampleWordsDecode
  decide

/-! ## The opcode table -/

/-- Rule R52: no two rows have the same operation code. -/
theorem opcodeTable_op_injective : ∀ r ∈ opcodeTable, ∀ r' ∈ opcodeTable, r.op = r'.op → r = r' := by
  decide

/-- Settles O6: a row that a word matches has the word's operation code, and no two rows have the same one. -/
theorem opcodeRowsAreDisjoint : Obligations.OpcodeRowsAreDisjoint := by
  intro w r r' hr hr' hw hw'
  obtain ⟨hop, -⟩ := (row_test_iff hr w).mp hw
  obtain ⟨hop', -⟩ := (row_test_iff hr' w).mp hw'
  exact opcodeTable_op_injective r hr r' hr' (hop.symm.trans hop')

/-- The command that a row of the table and an operand in its format describe (rules R52, R53, R57). -/
structure RowCommand (r : OpcodeRow) (x : BitVec r.format.operandBits) (i : Instr) : Prop where
  opcode_eq : opcode i = r.op
  argument_eq : argument i = x.setWidth 32
  mnemonic_eq : Machine.mnemonic i = r.mnemonic
  written_eq : Machine.writtenOperands i = if r.format = .z then [] else [x.toNat]

/-- Rules R52, R53: every row is the row of a command, whatever the operand in its format. -/
theorem exists_rowCommand : ∀ r ∈ opcodeTable, ∀ x : BitVec r.format.operandBits, ∃ i, RowCommand r x i := by
  simp only [opcodeTable, List.forall_mem_cons, List.not_mem_nil, false_imp_iff, implies_true, and_true]
  exact ⟨fun x => ⟨.nop, rfl, zero_eq_setWidth_noOperand x, rfl, rfl⟩,
    fun x => ⟨.begin, rfl, zero_eq_setWidth_noOperand x, rfl, rfl⟩,
    fun x => ⟨.stat, rfl, zero_eq_setWidth_noOperand x, rfl, rfl⟩,
    fun x => ⟨.engf x, rfl, rfl, rfl, rfl⟩,
    fun x => ⟨.hlen x, rfl, setWidth_word x, rfl, rfl⟩,
    fun x => ⟨.hchk x, rfl, rfl, rfl, rfl⟩,
    fun x => ⟨.tcmp x, rfl, setWidth_word x, rfl, rfl⟩,
    fun x => ⟨.hemit, rfl, zero_eq_setWidth_noOperand x, rfl, rfl⟩,
    fun x => ⟨.ainit, rfl, zero_eq_setWidth_noOperand x, rfl, rfl⟩,
    fun x => ⟨.aupd x, rfl, rfl, rfl, rfl⟩,
    fun x => ⟨.ard, rfl, zero_eq_setWidth_noOperand x, rfl, rfl⟩,
    fun x => ⟨.slen x, rfl, setWidth_word x, rfl, rfl⟩,
    fun x => ⟨.swap x, rfl, rfl, rfl, rfl⟩⟩

/-- Rule R54: the encoded word of every command is legal. -/
theorem legal_encode (i : Instr) : legal (encode i) = true :=
  match i with
  | .nop => Laws.EncodeLegal.nop
  | .begin => Laws.EncodeLegal.begin
  | .stat => Laws.EncodeLegal.stat
  | .engf sel => Laws.EncodeLegal.engf sel
  | .hlen w => Laws.EncodeLegal.hlen w
  | .hchk h => Laws.EncodeLegal.hchk h
  | .tcmp w => Laws.EncodeLegal.tcmp w
  | .hemit => Laws.EncodeLegal.hemit
  | .ainit => Laws.EncodeLegal.ainit
  | .aupd d => Laws.EncodeLegal.aupd d
  | .ard => Laws.EncodeLegal.ard
  | .slen w => Laws.EncodeLegal.slen w
  | .swap h => Laws.EncodeLegal.swap h

/-- Rule R54: a legal word has a row of its operation code that leaves its reserved bits 0. -/
theorem legal_iff {w : CommandWord} :
    legal w = true ↔ ∃ r ∈ opcodeTable, opField w = r.op ∧ argField w >>> r.format.operandBits = 0#32 := by
  simp only [legal, List.any_eq_true, beq_iff_eq]
  exact exists_congr fun r => and_congr_right fun hr => row_test_iff hr w

/-- The format of a defined `op` is its row's (rule R52). -/
theorem formatOf_eq_some_iff {op : Byte} {f : Format} :
    formatOf op = some f ↔ ∃ r ∈ opcodeTable, op = r.op ∧ r.format = f := by
  rw [formatOf, Option.map_eq_some_iff]
  constructor
  · rintro ⟨r, hr, rfl⟩
    exact ⟨r, List.mem_of_find?_eq_some hr, (by simpa using List.find?_some hr : r.op = op).symm, rfl⟩
  · rintro ⟨r, hr, rfl, rfl⟩
    obtain ⟨r', hr'⟩ := Option.isSome_iff_exists.mp
      (List.find?_isSome (p := fun q => q.op == r.op).mpr ⟨r, hr, beq_self_eq_true r.op⟩)
    have hop : r'.op = r.op := by simpa using List.find?_some hr'
    exact ⟨r', hr', by rw [opcodeTable_op_injective r' (List.mem_of_find?_eq_some hr') r hr hop]⟩

/-- Rule R54's two conditions: a defined `op`, and no reserved bit of its format. -/
theorem wellFormed_iff {w : CommandWord} :
    wellFormed w = true ↔ ∃ f, formatOf (opField w) = some f ∧ argField w >>> f.operandBits = 0#32 := by
  unfold wellFormed
  cases formatOf (opField w) <;> simp [reservedZero]

/-- Rule R54: the table's columns and the two conditions say the same. -/
theorem legal_iff_wellFormed (w : CommandWord) : legal w = true ↔ wellFormed w = true := by
  rw [legal_iff, wellFormed_iff]
  constructor
  · rintro ⟨r, hr, hop, hres⟩
    exact ⟨r.format, formatOf_eq_some_iff.mpr ⟨r, hr, hop, rfl⟩, hres⟩
  · rintro ⟨f, hf, hres⟩
    obtain ⟨r, hr, hop, rfl⟩ := formatOf_eq_some_iff.mp hf
    exact ⟨r, hr, hop, hres⟩

/-- Rules R52, R53: a legal word is the word of its row's command. -/
theorem exists_rowCommand_of_legal {w : CommandWord} (h : legal w = true) :
    ∃ r ∈ opcodeTable, ∃ x i, RowCommand r x i ∧ encode i = w := by
  obtain ⟨r, hr, hop, hres⟩ := legal_iff.mp h
  obtain ⟨i, hi⟩ := exists_rowCommand r hr ((argField w).setWidth r.format.operandBits)
  have hall : ((argField w).setWidth r.format.operandBits).setWidth 32 = argField w :=
    takeOperand_eq_some (if_pos hres)
  exact ⟨r, hr, _, i, hi, by rw [encode, hi.opcode_eq, hi.argument_eq, hall, ← hop, append_fields]⟩

/-- Rule R54: the decoder accepts exactly the legal words. -/
theorem decode_isSome_iff_legal (w : CommandWord) : (decode w).isSome = true ↔ legal w = true := by
  rw [Option.isSome_iff_exists]
  constructor
  · rintro ⟨i, hi⟩
    rw [← encode_of_decode hi]
    exact legal_encode i
  · intro h
    obtain ⟨-, -, -, i, -, rfl⟩ := exists_rowCommand_of_legal h
    exact ⟨i, decode_encode i⟩

theorem decode_eq_none_of_not_legal {w : CommandWord} (h : legal w = false) : decode w = none := by
  rw [← Option.not_isSome_iff_eq_none, decode_isSome_iff_legal, h]
  exact Bool.false_ne_true

/-- Settles O5: a legal word is the word of its row's command, every command's word is legal, and a row's test is the two
conditions of rule R54. -/
theorem decoderAcceptsExactlyLegalWords : Obligations.DecoderAcceptsExactlyLegalWords := fun w =>
  ⟨Bool.eq_iff_iff.mpr (decode_isSome_iff_legal w), Bool.eq_iff_iff.mpr (legal_iff_wellFormed w)⟩

/-! ## The assembler -/

open Machine

/-- Rule R52: a row is found by its mnemonic. -/
theorem find?_mnemonic : ∀ r ∈ opcodeTable,
    opcodeTable.find? (fun q => q.mnemonic.toList == r.mnemonic.toList) = some r := by
  decide

/-- Rule R57: `cmd = op * 2^32 + operand` for a row's mnemonic and an operand that its format has. -/
theorem assembleCommand_row {r : OpcodeRow} (hr : r ∈ opcodeTable) (x : BitVec r.format.operandBits) :
    assembleCommand r.mnemonic.toList (if r.format = .z then [] else [x.toNat]) = some (r.op ++ x.setWidth 32) := by
  have hx : x.toNat < 2 ^ r.format.operandBits := x.isLt
  simp only [assembleCommand, find?_mnemonic r hr]
  cases r with
  | mk name op format pattern mask =>
    cases format with
    | z => exact congrArg (fun a => some (op ++ a)) (zero_eq_setWidth_noOperand x)
    | i1 | i8 | i16 | i32 => exact (if_pos hx).trans (by rw [BitVec.ofNat_toNat])

/-- Rule R57: what a command name assembles to is its row's `op` with an operand that fits the format. -/
theorem exists_row_of_assembleCommand {name : List Char} {operands : List Nat} {w : CommandWord}
    (h : assembleCommand name operands = some w) :
    ∃ r ∈ opcodeTable, ∃ n < 2 ^ r.format.operandBits, w = r.op ++ BitVec.ofNat 32 n := by
  unfold assembleCommand at h
  split at h
  next => cases h
  next r hr =>
    refine ⟨r, List.mem_of_find?_eq_some hr, ?_⟩
    split at h
    next hf => exact ⟨0, Nat.two_pow_pos _, by cases h; rfl⟩
    next => cases h
    next n _ =>
      split_ifs at h with hn
      exact ⟨n, hn, by cases h; rfl⟩
    next => cases h

/-- A number that fits the operand field leaves the reserved bits 0. -/
theorem ofNat_ushiftRight_eq_zero {n k : Nat} (h : n < 2 ^ k) : BitVec.ofNat 32 n >>> k = 0#32 := by
  apply BitVec.eq_of_toNat_eq
  rw [BitVec.toNat_ushiftRight, BitVec.toNat_ofNat, Nat.shiftRight_eq_div_pow]
  exact Nat.div_eq_of_lt ((Nat.mod_le n _).trans_lt h)

/-- Rule R57: no named command assembles to an illegal word. -/
theorem legal_of_assembleCommand {name : List Char} {operands : List Nat} {w : CommandWord}
    (h : assembleCommand name operands = some w) : legal w = true := by
  obtain ⟨r, hr, n, hn, rfl⟩ := exists_row_of_assembleCommand h
  refine legal_iff.mpr ⟨r, hr, opField_append _ _, ?_⟩
  rw [argField_append, ofNat_ushiftRight_eq_zero hn]

/-- Rule R57: the mnemonic and the written operand of a command assemble to its word. -/
theorem assembleCommand_mnemonic (i : Instr) :
    assembleCommand (mnemonic i).toList (writtenOperands i) = some (encode i) := by
  obtain ⟨r, hr, x, j, hj, hji⟩ := exists_rowCommand_of_legal (legal_encode i)
  have hij : j = i := Option.some_injective _ (by rw [← decode_encode j, hji, decode_encode])
  subst hij
  rw [hj.mnemonic_eq, hj.written_eq, assembleCommand_row hr, encode, hj.opcode_eq, hj.argument_eq]

/-- Settles O51: a row is found by its mnemonic and its command's word is `op` and operand; what any name assembles to
meets a row's test. -/
theorem assemblerAgreesWithEncoder : Obligations.AssemblerAgreesWithEncoder :=
  ⟨assembleCommand_mnemonic, fun _ _ _ => legal_of_assembleCommand⟩

end Sys2Proof
end

section
/-! SUPPORT. What an event, a step and a run of events leave, as total functions: the machine never stops (rules R10, R18). -/

namespace Sys2Proof.Machine

/-! ## One command -/

@[simp] theorem effect_inbox_eq (i : Instr) (s : State) : (effect i s).inbox = s.inbox :=
  (congrArg State.inbox (effect_inbox i s s.inbox) :)

/-- Rule R70 (a): every command but BEGIN leaves a faulted block as it is but for the response. -/
theorem effect_frame_of_faulted {i : Instr} {s : State} (hs : s.status ≠ .ok) (hi : i ≠ .begin) :
    ∃ r, effect i s = { s with rsp := some r } := by
  rw [effect_of_faulted hs]
  cases i with
  | begin => exact absurd rfl hi
  | _ => exact ⟨_, rfl⟩

/-- Rule R12: no command reads the response before it. -/
theorem effect_setRsp (i : Instr) (s : State) (r : Option Response) : effect i { s with rsp := r } = effect i s := by
  by_cases hs : s.status = .ok
  · rw [effect_of_ok hs, effect_of_ok (s := { s with rsp := r }) hs]
  · rw [effect_of_faulted hs, effect_of_faulted (s := { s with rsp := r }) hs]

/-- Rule R152: a command that records a fault writes STATUS and a response with datum 0. -/
theorem effect_of_raises {i : Instr} {s : State} (hs : s.status = .ok) (h : (effect i s).status ≠ .ok) :
    effect i s = { s with status := (effect i s).status, rsp := some ⟨(effect i s).status, 0⟩ } := by
  rw [effect_of_ok hs] at h ⊢
  cases i with
  | engf | hchk | tcmp | slen => rfl
  | _ => exact absurd hs h

/-- Rule R55: every command answers with STATUS as it leaves it; once a fault is recorded, STAT alone has a datum. -/
theorem effect_rsp (i : Instr) (s : State) : ∃ d, (effect i s).rsp = some ⟨(effect i s).status, d⟩ ∧
    ((effect i s).status ≠ .ok → i ≠ .stat → d = 0) ∧ (i = .stat → d = statusData (effect i s).status) := by
  by_cases hs : s.status = .ok
  · rw [effect_of_ok hs]
    cases i <;> simp [hs, statusData, Status.code]
  · rw [effect_of_faulted hs]
    cases i <;> simp

/-! ## One event -/

/-- The state an event leaves (rules R10, R170): `present` without the outcome around it. -/
def eventEffect : HostEvent → State → State
  | .reset, s => takeReset s
  | .command w, s =>
    match decode w with
    | none => takeIllegal s
    | some i => effect i s

theorem eventEffect_of_decode {w : CommandWord} {i : Instr} (h : decode w = some i) (s : State) :
    eventEffect (.command w) s = effect i s := by
  simp only [eventEffect, h]

theorem eventEffect_of_illegal {w : CommandWord} (h : decode w = none) (s : State) :
    eventEffect (.command w) s = takeIllegal s := by
  simp only [eventEffect, h]

@[simp] theorem eventEffect_encode (i : Instr) (s : State) : eventEffect (.command (encode i)) s = effect i s :=
  eventEffect_of_decode (decode_encode i) s

/-- No event stops the block (rules R10, R178). -/
theorem present_eq_next (e : HostEvent) (s : State) : present e s = .next (eventEffect e s) := by
  cases e with
  | reset => rfl
  | command w =>
    cases hd : decode w with
    | none => rw [present_illegal hd, eventEffect_of_illegal hd]
    | some i => rw [present_legal hd, eventEffect_of_decode hd, exec_eq_effect]

/-- What waits behind an event takes no part in it (log entry 1). -/
theorem eventEffect_setInbox (e : HostEvent) (s : State) (l : List HostEvent) :
    eventEffect e { s with inbox := l } = { eventEffect e s with inbox := l } := by
  obtain ⟨u, hu⟩ := present_inbox e s
  have heq : ∀ l, eventEffect e { s with inbox := l } = { u with inbox := l } := fun l =>
    Host.Outcome.next.inj ((present_eq_next e _).symm.trans (hu l))
  rw [heq l, show eventEffect e s = _ from heq s.inbox]

@[simp] theorem eventEffect_inbox (e : HostEvent) (s : State) : (eventEffect e s).inbox = s.inbox :=
  (congrArg State.inbox (eventEffect_setInbox e s s.inbox) :)

theorem endsConversion_command {w : CommandWord} : endsConversion (.command w) = true ↔ w = encode .begin := by
  rw [endsConversion, beq_iff_eq, decode_eq_some_iff]

/-- Rule R154: what clears a fault is reset or BEGIN's word. -/
theorem endsConversion_iff {e : HostEvent} : endsConversion e = true ↔ e = .reset ∨ e = .command (encode .begin) := by
  cases e with
  | reset => simp [endsConversion]
  | command w => simp [endsConversion_command]

/-- Rule R154: an event that does not clear a fault leaves a faulted block as it is but for the response. -/
theorem eventEffect_frame_of_faulted {e : HostEvent} {s : State} (hs : s.status ≠ .ok) (he : endsConversion e = false) :
    ∃ r, eventEffect e s = { s with rsp := some r } := by
  cases e with
  | reset => cases he
  | command w =>
    cases hd : decode w with
    | none => exact ⟨_, by rw [eventEffect_of_illegal hd, takeIllegal, raise_of_faulted hs]⟩
    | some i =>
      have hi : i ≠ .begin := by
        rintro rfl
        exact Bool.false_ne_true (he.symm.trans (endsConversion_command.mpr (decode_eq_some_iff.mp hd)))
      rw [eventEffect_of_decode hd]
      exact effect_frame_of_faulted hs hi

/-- Rules R20, R154: reset and BEGIN both restore the start state. -/
theorem eventEffect_of_endsConversion {e : HostEvent} (he : endsConversion e = true) (s : State) :
    ∃ r, eventEffect e s = { a := 1, b := 0, len := 0, status := .ok, rsp := r, inbox := s.inbox } := by
  rcases endsConversion_iff.mp he with rfl | rfl
  · exact ⟨_, takeReset_eq s⟩
  · exact ⟨_, eventEffect_encode .begin s⟩

/-- Rule R152: a word that records a fault, legal or not, writes STATUS and a response with datum 0. -/
theorem eventEffect_of_raises {w : CommandWord} {s : State} (hs : s.status = .ok)
    (h : (eventEffect (.command w) s).status ≠ .ok) :
    eventEffect (.command w) s = { s with
      status := (eventEffect (.command w) s).status, rsp := some ⟨(eventEffect (.command w) s).status, 0⟩ } := by
  cases hd : decode w with
  | none => rw [eventEffect_of_illegal hd, takeIllegal, raise_of_ok hs]
  | some i =>
    rw [eventEffect_of_decode hd] at h ⊢
    exact effect_of_raises hs h

/-- Rule R55: every presented word is answered with STATUS as it leaves it; once a fault is recorded, STAT alone has a
datum. -/
theorem eventEffect_rsp (w : CommandWord) (s : State) :
    ∃ d, (eventEffect (.command w) s).rsp = some ⟨(eventEffect (.command w) s).status, d⟩ ∧
      ((eventEffect (.command w) s).status ≠ .ok → w ≠ encode .stat → d = 0) ∧
      (w = encode .stat → d = statusData (eventEffect (.command w) s).status) := by
  cases hd : decode w with
  | none =>
    have hw : w ≠ encode .stat := fun hw => by simp [hw, decode_encode] at hd
    rw [eventEffect_of_illegal hd, takeIllegal]
    exact ⟨0, by rw [raise_rsp, raise_status], fun _ _ => rfl, fun h => absurd h hw⟩
  | some i =>
    have hw : w = encode .stat ↔ i = .stat := by
      rw [← decode_eq_some_iff, hd, Option.some.injEq]
    rw [eventEffect_of_decode hd]
    simpa only [ne_eq, hw] using effect_rsp i s

/-! ## One step -/

/-- The state a step leaves (rules R10, R42). -/
def nextState (s : State) : State :=
  match s.inbox with
  | [] => idle s
  | e :: rest => eventEffect e { s with inbox := rest }

theorem nextState_of_nil {s : State} (h : s.inbox = []) : nextState s = idle s := by
  simp only [nextState, h]

theorem nextState_of_cons {s : State} {e : HostEvent} {rest : List HostEvent} (h : s.inbox = e :: rest) :
    nextState s = eventEffect e { s with inbox := rest } := by
  simp only [nextState, h]

/-- No step stops (rules R10, R178). -/
theorem step_eq_next (s : State) : step s = .next (nextState s) := by
  cases h : s.inbox with
  | nil => rw [step_of_nil h, nextState_of_nil h]
  | cons e rest => rw [step_of_cons h, present_eq_next, nextState_of_cons h]

/-- A step takes the next event. -/
theorem nextState_inbox (s : State) : (nextState s).inbox = s.inbox.tail := by
  cases h : s.inbox with
  | nil =>
    rw [nextState_of_nil h]
    exact h
  | cons e rest =>
    rw [nextState_of_cons h, eventEffect_inbox]
    rfl

/-! ## A run of events -/

/-- The state after a list of events (rule R18). -/
def finalState : List HostEvent → State → State
  | [], s => s
  | e :: es, s => finalState es (eventEffect e s)

/-- The responses to a list of events, in order (rule R42). -/
def responses : List HostEvent → State → List Response
  | [], _ => []
  | e :: es, s => (eventEffect e s).rsp.toList ++ responses es (eventEffect e s)

/-- No run of events stops (rules R10, R18). -/
theorem collect_eq_next (es : List HostEvent) (s : State) : collect es s = .next (finalState es s, responses es s) := by
  induction es generalizing s with
  | nil => rfl
  | cons e es ih => rw [collect_cons, present_eq_next, andThen_next, ih, andThen_next, finalState, responses]

theorem collect_eq_next_iff {es : List HostEvent} {s t : State} {rs : List Response} :
    collect es s = .next (t, rs) ↔ finalState es s = t ∧ responses es s = rs := by
  rw [collect_eq_next, Host.Outcome.next.injEq, Prod.mk.injEq]

@[simp] theorem finalState_inbox (es : List HostEvent) (s : State) : (finalState es s).inbox = s.inbox := by
  induction es generalizing s with
  | nil => rfl
  | cons e es ih => rw [finalState, ih, eventEffect_inbox]

theorem clearsNothing_cons {e : HostEvent} {es : List HostEvent} :
    clearsNothing (e :: es) ↔ endsConversion e = false ∧ clearsNothing es :=
  List.forall_mem_cons

/-- Rule R154: a recorded fault stays over any events without BEGIN or reset. -/
theorem finalState_status_of_faulted {es : List HostEvent} {s : State} (hs : s.status ≠ .ok) (hes : clearsNothing es) :
    (finalState es s).status = s.status := by
  induction es generalizing s with
  | nil => rfl
  | cons e es ih =>
    obtain ⟨he, hes⟩ := clearsNothing_cons.mp hes
    obtain ⟨r, hr⟩ := eventEffect_frame_of_faulted hs he
    rw [finalState, hr]
    exact ih (s := { s with rsp := some r }) hs hes

end Sys2Proof.Machine
end

section
/-! SUPPORT. The statements about steps: reset, the port, the frame, what raises and clears a fault, the invariant. -/

namespace Sys2Proof.Machine

/-! ## Reset, the port, legality -/

/-- Settles O1: reset is an event, whose effect is rule R171's; BEGIN's registers are the same four. -/
theorem resetGivesStartState : Obligations.ResetGivesStartState := by
  refine ⟨fun s rest h => ?_, ⟨rfl, rfl, rfl, rfl⟩, fun s t u ht hu => ?_⟩
  · rw [step_of_cons h, present_reset, takeReset_eq]
  · cases ht
    cases hu
    exact ⟨rfl, rfl, rfl, rfl⟩

/-- Settles O2: with nothing presented the step is idle. -/
theorem nothingPresentedNothingChanges : Obligations.NothingPresentedNothingChanges := fun s h => by
  rw [step_of_nil h, idle_eq]

/-- Settles O3: the step takes the word, and a legal word is executed. -/
theorem stepRunsPresentedCommand : Obligations.StepRunsPresentedCommand := fun s w rest i h hi => by
  rw [step_of_cons h, present_legal hi]

/-- Settles O4: an illegal word does not decode, so it is taken as one. -/
theorem illegalWordRaisesIllegalCommand : Obligations.IllegalWordRaisesIllegalCommand := fun s w rest h hw => by
  rw [step_of_cons h, present_illegal (decode_eq_none_of_not_legal hw), takeIllegal_eq]

/-- Settles O29: every step has a next state, and takes the next event. -/
theorem everyStepCompletes : Obligations.EveryStepCompletes := fun s =>
  ⟨nextState s, step_eq_next s, nextState_inbox s⟩

/-! ## Frames and faults -/

/-- Settles O23: the gated commands are ignored; the other three are named by cases. -/
theorem faultedBlockIgnoresTheTen : Obligations.FaultedBlockIgnoresTheTen :=
  ⟨fun _ _ hi hs => exec_gated_of_faulted hi hs, fun i => by cases i <;> simp [isGated]⟩

/-- Settles O24: by cases on the command, each register of the record it leaves. -/
theorem registersHaveOnlyTheirWriters : Obligations.RegistersHaveOnlyTheirWriters := by
  intro i s t h
  rw [exec_eq_effect] at h
  cases h
  by_cases hs : s.status = .ok
  · rw [effect_of_ok hs]
    cases i <;> simp [hs]
  · rw [effect_of_faulted hs]
    cases i <;> simp

/-- Settles O25: the step is the word's effect, which writes STATUS alone when it records a fault. -/
theorem raisingWritesOnlyStatus : Obligations.RaisingWritesOnlyStatus := by
  intro s w rest t h hs ht hne
  rw [step_eq_next, nextState_of_cons h] at ht
  cases ht
  exact eventEffect_of_raises (s := { s with inbox := rest }) hs hne

/-- Settles O26: reset and BEGIN's word restore the start state; any other event, or none, changes the response alone. -/
theorem onlyBeginOrResetClearsAFault : Obligations.OnlyBeginOrResetClearsAFault := by
  intro s hs
  cases hin : s.inbox with
  | nil =>
    refine ⟨by simp, fun _ _ => ⟨_, step_eq_next s, ?_⟩⟩
    rw [nextState_of_nil hin]
    exact ⟨rfl, rfl, rfl, rfl⟩
  | cons e rest =>
    have hends : endsConversion e = true ↔ some e = some .reset ∨ some e = some (.command 0x0100000000) := by
      rw [endsConversion_iff, Option.some.injEq, Option.some.injEq]
      rfl
    rw [List.head?_cons, ← hends]
    refine ⟨fun he => ⟨_, step_eq_next s, ?_⟩, fun hr hb => ⟨_, step_eq_next s, ?_⟩⟩
    · rw [nextState_of_cons hin]
      obtain ⟨r, hr⟩ := eventEffect_of_endsConversion he { s with inbox := rest }
      rw [hr]
      exact ⟨rfl, rfl, rfl, rfl⟩
    · have he : endsConversion e = false := Bool.eq_false_iff.mpr fun he => (hends.mp he).elim hr hb
      rw [nextState_of_cons hin]
      obtain ⟨r, hr⟩ := eventEffect_frame_of_faulted (s := { s with inbox := rest }) hs he
      rw [hr]
      exact ⟨rfl, rfl, rfl, rfl⟩

/-- Rule R55: the two fields of the response word. -/
theorem Response.extract_word (r : Response) :
    r.word.extractLsb' 32 4 = r.status.code ∧ r.word.extractLsb' 0 32 = r.data :=
  ⟨BitVec.extractLsb'_append_eq_left, BitVec.extractLsb'_append_eq_right⟩

/-- Settles O30: the step is the word's effect, which answers with the STATUS it leaves. -/
theorem everyCommandIsAnswered : Obligations.EveryCommandIsAnswered := by
  intro s w rest h
  obtain ⟨d, hrsp, hzero, hstat⟩ := eventEffect_rsp w { s with inbox := rest }
  rw [← nextState_of_cons h] at hrsp hzero hstat
  exact ⟨_, _, step_eq_next s, hrsp, rfl, hzero, hstat, Response.extract_word _⟩

/-- Settles O31: each of these commands leaves a state that differs in the response alone, and no command reads that. -/
theorem readOnlyCommandsRepeat : Obligations.ReadOnlyCommandsRepeat := by
  intro i hi s
  have hframe : ∃ r, exec i s = .next { s with rsp := some r } := by
    by_cases hs : s.status = .ok
    · rcases hi with rfl | rfl | rfl | rfl | ⟨h, rfl⟩ | ⟨w, rfl, hw⟩
      case inr.inr.inr.inr.inr => exact ⟨_, exec_slen_of_even hs hw⟩
      all_goals
        rw [exec_eq_effect, effect_of_ok hs]
        exact ⟨_, rfl⟩
    · obtain ⟨r, hr⟩ := effect_frame_of_faulted (i := i) hs (by rintro rfl; simp at hi)
      exact ⟨r, by rw [exec_eq_effect, hr]⟩
  obtain ⟨r, hr⟩ := hframe
  exact ⟨r, hr, by rw [exec_eq_effect, effect_setRsp, ← exec_eq_effect, hr]⟩

/-! ## The invariant -/

/-- Rule R101: the accumulator step as numbers; a remainder by the modulus fits 16 bits. -/
theorem adlStep_toNat (a b : Half) (d : Byte) :
    (adlStep (a, b) d).1.toNat = (a.toNat + d.toNat) % 65521 ∧
    (adlStep (a, b) d).2.toNat = (b.toNat + (a.toNat + d.toNat) % 65521) % 65521 := by
  have hfits : ∀ n, (BitVec.ofNat 16 (n % modulus)).toNat = n % 65521 := fun n => by
    rw [BitVec.toNat_ofNat, modulus]
    omega
  exact ⟨hfits _, hfits _⟩

/-- Rules R101, R103: both sums are reduced. -/
theorem adlStep_lt (ab : Half × Half) (d : Byte) :
    (adlStep ab d).1.toNat < modulus ∧ (adlStep ab d).2.toNat < modulus := by
  obtain ⟨ha, hb⟩ := adlStep_toNat ab.1 ab.2 d
  exact ⟨ha ▸ Nat.mod_lt _ (by decide), hb ▸ Nat.mod_lt _ (by decide)⟩

/-- Rule R20: the start values are in range. -/
theorem inRange_of_start {s : State} (ha : s.a = 1) (hb : s.b = 0) : inRange s := by
  rw [inRange, ha, hb]
  decide

/-- Rule R21: every command keeps both accumulators in range. -/
theorem effect_inRange {s : State} (h : inRange s) (i : Instr) : inRange (effect i s) := by
  by_cases hs : s.status = .ok
  · rw [effect_of_ok hs]
    cases i with
    | begin | ainit => exact inRange_of_start rfl rfl
    | aupd d => exact adlStep_lt (s.a, s.b) d
    | _ => exact h
  · rw [effect_of_faulted hs]
    cases i with
    | begin => exact inRange_of_start rfl rfl
    | _ => exact h

/-- Rule R21: every event keeps both accumulators in range. -/
theorem eventEffect_inRange {s : State} (h : inRange s) (e : HostEvent) : inRange (eventEffect e s) := by
  cases e with
  | reset => exact inRange_of_start rfl rfl
  | command w =>
    cases hd : decode w with
    | none => rwa [eventEffect_of_illegal hd, takeIllegal, inRange, raise_a, raise_b]
    | some i =>
      rw [eventEffect_of_decode hd]
      exact effect_inRange h i

/-- Rule R55: the response to every event is honest, whatever the response before it was. -/
theorem eventEffect_honestResponse (e : HostEvent) (s : State) : honestResponse (eventEffect e s) := by
  cases e with
  | reset => exact nofun
  | command w =>
    obtain ⟨d, hrsp, hzero, hstat⟩ := eventEffect_rsp w s
    intro r hr
    cases hrsp.symm.trans hr
    refine ⟨rfl, fun hne => ?_⟩
    by_cases hw : w = encode .stat
    · exact .inr (hstat hw)
    · exact .inl (hzero hne hw)

theorem nextState_invariant {s : State} (h : inRange s) : Invariant (nextState s) := by
  cases hin : s.inbox with
  | nil =>
    rw [nextState_of_nil hin]
    exact ⟨h, nofun⟩
  | cons e rest =>
    rw [nextState_of_cons hin]
    exact ⟨eventEffect_inRange (s := { s with inbox := rest }) h e, eventEffect_honestResponse e _⟩

/-- Settles O27: every event keeps the range and gives an honest response; with none, nothing changes and none is given. -/
theorem everyStepKeepsInvariant : Obligations.EveryStepKeepsInvariant := by
  intro s t hs ht
  rw [step_eq_next] at ht
  cases ht
  exact nextState_invariant hs.1

/-- Settles O28: (1, 0) is in range, and there is no response. -/
theorem resetMeetsInvariant : Obligations.ResetMeetsInvariant := ⟨inRange_of_start rfl rfl, nofun⟩

end Sys2Proof.Machine
end

section
/-! SUPPORT. The statements about runs, conversions and instances (10_state.md, 60_exceptions.md, 70_reset_and_hazards.md). -/

namespace Sys2Proof.Machine

/-! ## The machine's own steps -/

theorem finalState_setInbox (es : List HostEvent) (s : State) (l : List HostEvent) :
    finalState es { s with inbox := l } = { finalState es s with inbox := l } := by
  induction es generalizing s with
  | nil => rfl
  | cons e es ih => rw [finalState, eventEffect_setInbox, ih, finalState]

/-- Rules R18, R42: the machine's steps over what waits are the fold of those events. -/
theorem run_eq_finalState (es rest : List HostEvent) (s : State) :
    Host.Core.run core es.length ({ s with inbox := es ++ rest } : State) =
      .next ({ finalState es s with inbox := rest } : State) := by
  induction es generalizing s with
  | nil => rfl
  | cons e es ih =>
    have hstep : core.step ({ s with inbox := e :: es ++ rest } : State) =
        .next ({ eventEffect e s with inbox := es ++ rest } : State) :=
      calc step { s with inbox := e :: es ++ rest }
        _ = present e { s with inbox := es ++ rest } := step_of_cons rfl
        _ = .next (eventEffect e { s with inbox := es ++ rest }) := present_eq_next e _
        _ = .next { eventEffect e s with inbox := es ++ rest } := by rw [eventEffect_setInbox]
    exact (run_succ_of_next core hstep es.length).trans (ih (eventEffect e s))

/-- Settles O47: the fold of the events commutes with what waits behind them. -/
theorem runFoldsPresentedEvents : Obligations.RunFoldsPresentedEvents := by
  intro es rest s t rs h
  obtain ⟨rfl, -⟩ := collect_eq_next_iff.mp h
  rw [finalState_setInbox]
  exact ⟨run_eq_finalState es rest s, rfl⟩

/-! ## The first fault, and the outcomes of conversions -/

theorem firstFault_cons_of_ok {r : Response} (h : r.status = .ok) (rs : List Response) :
    firstFault (r :: rs) = firstFault rs := by
  simp [firstFault, h]

theorem firstFault_cons_of_fault {r : Response} (h : r.status ≠ .ok) (rs : List Response) :
    firstFault (r :: rs) = r.status := by
  simp [firstFault, h]

/-- Rules R153, R154: the first response with a fault decides STATUS for the rest of the run. -/
theorem finalState_status_eq_firstFault {es : List HostEvent} {s : State} (hes : clearsNothing es) (hs : s.status = .ok) :
    (finalState es s).status = firstFault (responses es s) := by
  induction es generalizing s with
  | nil => exact hs
  | cons e es ih =>
    obtain ⟨he, htail⟩ := clearsNothing_cons.mp hes
    cases e with
    | reset => cases he
    | command w =>
      obtain ⟨d, hrsp, -⟩ := eventEffect_rsp w s
      rw [finalState, responses, hrsp, Option.toList_some, List.singleton_append]
      by_cases hok : (eventEffect (.command w) s).status = .ok
      · rw [firstFault_cons_of_ok hok, ih htail hok]
      · rw [firstFault_cons_of_fault hok, finalState_status_of_faulted hok htail]

/-- Settles O48: by induction on the events; up to the first fault the responses are OK, after it STATUS stays. -/
theorem firstFaultIsTheOutcome : Obligations.FirstFaultIsTheOutcome := by
  intro es s t rs hes hs h
  obtain ⟨rfl, rfl⟩ := collect_eq_next_iff.mp h
  exact finalState_status_eq_firstFault hes hs

theorem outcomesFrom_cons (live : Bool) (e : HostEvent) (es : List HostEvent) (s : State) :
    outcomesFrom live (e :: es) s =
      andThen (outcomesFrom (e != .reset) es (eventEffect e s)) fun r =>
        .next (if live && endsConversion e then s.status :: r else r) := by
  rw [outcomesFrom, present_eq_next, andThen_next]

theorem ne_reset_of_endsConversion {e : HostEvent} (h : endsConversion e = false) : (e != .reset) = true := by
  cases e with
  | reset => cases h
  | command w => rfl

theorem andThen_next_self {α : Type} (o : Host.Outcome α Fault Refusal) : andThen o .next = o := by
  cases o <;> rfl

/-- Rules R173, R174: events without BEGIN and reset have no outcome of their own; the conversion goes on. -/
theorem outcomesFrom_append {es : List HostEvent} (hes : clearsNothing es) (fs : List HostEvent) (s : State) :
    outcomesFrom true (es ++ fs) s = outcomesFrom true fs (finalState es s) := by
  induction es generalizing s with
  | nil => rfl
  | cons e es ih =>
    obtain ⟨he, hes⟩ := clearsNothing_cons.mp hes
    rw [List.cons_append, outcomesFrom_cons, ne_reset_of_endsConversion he, he, ih hes, finalState]
    exact andThen_next_self _

/-- Rules R173, R174: with nothing after them, the one outcome is STATUS at the end. -/
theorem outcomesFrom_of_clearsNothing {es : List HostEvent} (hes : clearsNothing es) (s : State) :
    outcomesFrom true es s = .next [(finalState es s).status] := by
  have h := outcomesFrom_append hes [] s
  rwa [List.append_nil] at h

/-- Rule R173: what ends a conversion gives it STATUS as outcome; what comes after starts from the state it leaves. -/
theorem outcomesFrom_cons_of_ends {e : HostEvent} (he : endsConversion e = true) (fs : List HostEvent) (s : State) :
    outcomesFrom true (e :: fs) s =
      andThen (outcomesFrom (e != .reset) fs (eventEffect e s)) fun r => .next (s.status :: r) := by
  rw [outcomesFrom_cons, he]
  rfl

/-- Rules R20, R173: what comes after a BEGIN or a reset starts from the start state, whatever was before. -/
theorem eventEffect_of_ends_eq_start {e : HostEvent} (he : endsConversion e = true) (s : State) :
    eventEffect e s = eventEffect e { State.reset with inbox := s.inbox } := by
  rcases endsConversion_iff.mp he with rfl | rfl
  · rfl
  · rw [eventEffect_encode, eventEffect_encode]
    rfl

/-- Settles O49: events without BEGIN and reset lead to their final state; from there a BEGIN, a reset or the end gives
STATUS as outcome, and the first two leave what they leave of the start state. -/
theorem conversionsHaveIndependentOutcomes : Obligations.ConversionsHaveIndependentOutcomes := by
  refine ⟨fun es fs s t rs os hes h hos => ?_, fun es fs s t rs os hes h hos => ?_, fun es s t rs hes h => ?_,
    fun w es t rs hes h => ?_⟩
  · obtain ⟨rfl, -⟩ := collect_eq_next_iff.mp h
    have hbegin : endsConversion (.command 0x0100000000) = true := by decide
    rw [outcomesFrom_cons_of_ends hbegin, ← eventEffect_of_ends_eq_start hbegin, andThen_eq_next] at hos
    obtain ⟨r, hr, hcons⟩ := hos
    cases hcons
    rw [outcomesFrom_append hes, outcomesFrom_cons_of_ends hbegin, hr, andThen_next]
  · obtain ⟨rfl, -⟩ := collect_eq_next_iff.mp h
    rw [outcomesFrom_append hes, outcomesFrom_cons_of_ends rfl]
    exact congrArg (andThen · _) hos
  · obtain ⟨rfl, -⟩ := collect_eq_next_iff.mp h
    exact outcomesFrom_of_clearsNothing hes s
  · obtain ⟨rfl, -⟩ := collect_eq_next_iff.mp h
    rw [outcomes, outcomesFrom_cons, finalState]
    exact congrArg (andThen · _) (outcomesFrom_of_clearsNothing hes _)

/-! ## Instances -/

/-- Rule R158: a step of the block at index `k` is a change of the list at `k` alone. -/
theorem stepInstance_eq_next (k : Nat) (y : System) : stepInstance k y = .next ⟨y.insts.modify k nextState⟩ := by
  rw [stepInstance, List.modify_eq_set_getElem?]
  cases y.insts[k]? with
  | none => rfl
  | some s =>
    simp only [step_eq_next]
    rfl

/-- Settles O50: a change of the list at one index, and the changes at two indices in either order. -/
theorem instancesShareNothing : Obligations.InstancesShareNothing := by
  refine ⟨fun k y => ⟨_, stepInstance_eq_next k y, List.length_modify .., fun j hj => ?_, fun s hs => ?_⟩,
    fun j k y u v hjk hu hv => ?_, ?_, fun s hs => ?_⟩
  · exact List.getElem?_modify_ne _ _ hj.symm
  · exact ⟨nextState s, step_eq_next s, by rw [List.getElem?_modify_eq, hs]; rfl⟩
  · rw [stepInstance_eq_next] at hu hv
    cases hu
    cases hv
    rw [stepInstance_eq_next, stepInstance_eq_next, List.modify_modify_ne _ _ _ hjk]
  · simp [systemReset, Config.nInst]
  · exact List.eq_of_mem_replicate hs

end Sys2Proof.Machine
end

section
/-! SUPPORT. The statements about the pure functions: header check, accumulator step, packing, pair function
(41_container.md, 42_adler32.md, 43_byte_pair_swap.md). -/

namespace Sys2Proof.Machine

/-! ## The accepted headers -/

/-- Rule R80's last two tests, on a header value whose first byte is 0x78. -/
theorem hdrCheck_cmf_of_le {n : Nat} (hn : 6 ≤ n) (flg : Byte) :
    hdrCheck n (0x78#8 ++ flg) =
      if flg.getLsbD 5 = true then .unsupportedFeature
      else if (30720 + flg.toNat) % 31 ≠ 0 then .headerChecksumMismatch
      else .ok := by
  have hjoin : 0x78#8 ++ flg = joinBytes 0x78#8 flg := rfl
  obtain ⟨hm, hw⟩ := (cmf_eq_iff_nibbles (joinBytes 0x78#8 flg)).mp (highByte_joinBytes _ _)
  rw [hjoin, hdrCheck_of_le hn, if_neg (not_not.mpr hm), if_neg (not_not.mpr hw), ← lowByte_fdict, lowByte_joinBytes,
    joinBytes_toNat]
  rfl

/-- Rule R82: with the preset-dictionary bit clear, four flag bytes make the header value divisible by 31. -/
theorem fcheck_iff : ∀ {flg : Byte}, flg.getLsbD 5 = false →
    ((30720 + flg.toNat) % 31 = 0 ↔ flg = 0x01 ∨ flg = 0x5E ∨ flg = 0x9C ∨ flg = 0xDA) := by
  decide

/-- A header value that is accepted has first byte 0x78 (rules R80, R82). -/
theorem cmf_of_hdrCheck_ok {n : Nat} {h : Half} (hn : 6 ≤ n) (hok : hdrCheck n h = .ok) : highByte h = 0x78#8 := by
  rw [hdrCheck_of_le hn] at hok
  split_ifs at hok with hm hw
  exact (cmf_eq_iff_nibbles h).mpr ⟨not_not.mp hm, not_not.mp hw⟩

/-- Rule R82: the four accepted headers are those an encoder may emit. -/
theorem hdrCheck_eq_ok_iff (n : Nat) (h : Half) :
    hdrCheck n h = .ok ↔ 6 ≤ n ∧ (h = 0x7801 ∨ h = 0x785E ∨ h = 0x789C ∨ h = 0x78DA) := by
  constructor
  · intro hok
    have hn : 6 ≤ n := by
      by_contra hn
      rw [hdrCheck_of_lt (Nat.not_le.mp hn)] at hok
      cases hok
    refine ⟨hn, ?_⟩
    have hh : h = 0x78#8 ++ lowByte h := by
      conv_lhs => rw [← joinBytes_high_low h, cmf_of_hdrCheck_ok hn hok]
      rfl
    rw [hh] at hok ⊢
    rw [hdrCheck_cmf_of_le hn] at hok
    split_ifs at hok with hf hc
    rcases (fcheck_iff (Bool.eq_false_iff.mpr hf)).mp (not_not.mp hc) with hl | hl | hl | hl <;> rw [hl] <;> decide
  · rintro ⟨hn, rfl | rfl | rfl | rfl⟩
    · exact hdrCheck_emittedHeader hn .flg01
    · exact hdrCheck_emittedHeader hn .flg5E
    · exact hdrCheck_emittedHeader hn .flg9C
    · exact hdrCheck_emittedHeader hn .flgDA

/-- Settles O32: once the first byte is 0x78, the tests left are bit 5 and divisibility of the flag byte's number. -/
theorem acceptedHeadersAreFour : Obligations.AcceptedHeadersAreFour := by
  refine ⟨hdrCheck_eq_ok_iff, fun n flg hn => ?_, fun n flg hn => ?_⟩
  · rw [hdrCheck_cmf_of_le hn]
    cases flg.getLsbD 5 with
    | true => simp
    | false => split_ifs <;> simp_all
  · rw [hdrCheck_cmf_of_le hn]
    cases hf : flg.getLsbD 5 with
    | true => simp
    | false => simp [fcheck_iff hf]

/-! ## The accumulator step in hardware -/

/-- Rule R102: below twice the modulus, one conditional subtraction is the remainder. -/
theorem reduceOnce_toNat {x : BitVec 17} (hx : x.toNat < 2 * 65521) : (reduceOnce x).toNat = x.toNat % 65521 := by
  have hlt : x < 65521#17 ↔ x.toNat < 65521 := BitVec.lt_def
  unfold reduceOnce
  split_ifs with h
  · have := hlt.mp h
    rw [BitVec.toNat_setWidth]
    omega
  · have := mt hlt.mpr h
    rw [BitVec.toNat_setWidth, BitVec.toNat_sub, BitVec.toNat_ofNat]
    omega

/-- Rule R103: 17 bits hold the sum of two operands of at most 16 bits. -/
theorem setWidth_add_toNat {n : Nat} (hn : n ≤ 16) (x : Half) (y : BitVec n) :
    (x.setWidth 17 + y.setWidth 17).toNat = x.toNat + y.toNat := by
  have hx : x.toNat < 2 ^ 16 := x.isLt
  have hy : y.toNat < 2 ^ 16 := y.isLt.trans_le (Nat.pow_le_pow_right (by decide) hn)
  rw [BitVec.toNat_add, BitVec.toNat_setWidth, BitVec.toNat_setWidth]
  omega

/-- Rules R102, R103: a 17-bit adder and one conditional subtraction are the sum's remainder. -/
theorem reduceOnce_add_toNat {n : Nat} (hn : n ≤ 16) (x : Half) (y : BitVec n) (h : x.toNat + y.toNat < 2 * 65521) :
    (reduceOnce (x.setWidth 17 + y.setWidth 17)).toNat = (x.toNat + y.toNat) % 65521 := by
  have hsum := setWidth_add_toNat hn x y
  rw [reduceOnce_toNat (hsum ▸ h), hsum]

/-- Settles O34: on the range each sum is below twice the modulus, so that its reduction is the remainder. -/
theorem datapathComputesAccumulatorStep : Obligations.DatapathComputesAccumulatorStep := by
  intro a b d ha hb
  have hd : d.toNat < 256 := d.isLt
  obtain ⟨ha', hb'⟩ := adlStep_toNat a b d
  have hfst : (adlStepDatapath (a, b) d).1.toNat = (a.toNat + d.toNat) % 65521 :=
    reduceOnce_add_toNat (by decide) a d (by omega)
  have hsnd : (adlStepDatapath (a, b) d).2.toNat = (b.toNat + (adlStepDatapath (a, b) d).1.toNat) % 65521 :=
    reduceOnce_add_toNat (by decide) b (adlStepDatapath (a, b) d).1 (by omega)
  refine Prod.ext (BitVec.eq_of_toNat_eq ?_) (BitVec.eq_of_toNat_eq ?_)
  · rw [hfst, ha']
  · rw [hsnd, hfst, hb']

/-! ## Packing -/

/-- Rule R21: the running values stay below the modulus. -/
theorem foldl_adlStep_lt (data : List Byte) {ab : Half × Half} (h : ab.1.toNat < modulus ∧ ab.2.toNat < modulus) :
    (data.foldl adlStep ab).1.toNat < modulus ∧ (data.foldl adlStep ab).2.toNat < modulus := by
  induction data generalizing ab with
  | nil => exact h
  | cons d data ih => exact ih (adlStep_lt ab d)

/-- Rule R104: the halves of a packed pair are its two values. -/
theorem extract_pack (a b : Half) : (pack a b).extractLsb' 0 16 = a ∧ (pack a b).extractLsb' 16 16 = b := by
  rw [pack_eq_append]
  exact ⟨BitVec.extractLsb'_append_eq_right, BitVec.extractLsb'_append_eq_left⟩

/-- Settles O35: the halves of a checksum are the running values, which are below the modulus. -/
theorem checksumPacking : Obligations.ChecksumPacking := by
  refine ⟨pack_toNat, fun data => ?_, by decide⟩
  obtain ⟨ha, hb⟩ := foldl_adlStep_lt data (ab := (aInit, bInit)) (by decide)
  rw [checksum, (extract_pack _ _).1, (extract_pack _ _).2]
  exact ⟨Nat.le_of_lt_succ ha, Nat.le_of_lt_succ hb⟩

/-! ## The pair function -/

/-- Rule R121's mask only drops bits that the shift drops. -/
theorem mask_shiftLeft (h : Half) : (h &&& 0xFF) <<< 8 = h <<< 8 := by
  have hmask : h.toNat &&& (0xFF : Half).toNat = h.toNat % 2 ^ 8 := Nat.and_two_pow_sub_one_eq_mod _ 8
  apply BitVec.eq_of_toNat_eq
  rw [BitVec.toNat_shiftLeft, BitVec.toNat_shiftLeft, BitVec.toNat_and, hmask, Nat.shiftLeft_eq, Nat.shiftLeft_eq]
  omega

theorem swapPair_eq_rotateLeft (h : Half) : swapPair h = h.rotateLeft 8 := by
  rw [swapPair, mask_shiftLeft]
  rfl

theorem halfBytes_joinBytes (x y : Byte) : halfBytes (joinBytes x y) = [x, y] := by
  rw [halfBytes, highByte_joinBytes, lowByte_joinBytes]

/-- Settles O40: the two shifts are a rotation, and the first group of a sequence is swapped as one pair. -/
theorem pairFunctionIsRotation : Obligations.PairFunctionIsRotation := by
  refine ⟨swapPair_append, swapPair_eq_rotateLeft, fun x y p => ?_⟩
  rw [swapPair_append, swapPairs_cons_cons]
  exact congrArg (· ++ swapPairs p) (halfBytes_joinBytes y x).symm

end Sys2Proof.Machine
end

section
/-! SUPPORT. The statements about command sequences: CKSUM, interleaving, SWAPSEQ (42_adler32.md, 43_byte_pair_swap.md). -/

namespace Sys2Proof.Machine

/-! ## Rules for sequences of commands -/

theorem finalState_submit_cons (i : Instr) (is : List Instr) (s : State) :
    finalState (submit (i :: is)) s = finalState (submit is) (effect i s) := by
  rw [submit_cons, finalState, eventEffect_encode]

/-- A command and then the others. -/
theorem collect_submit_cons {i : Instr} {is : List Instr} {s t u : State} {r : Response} {rs : List Response}
    (h : exec i s = .next t) (hr : t.rsp = some r) (hrest : collect (submit is) t = .next (u, rs)) :
    collect (submit (i :: is)) s = .next (u, r :: rs) := by
  rw [submit_cons, collect_cons, present_legal (decode_encode i), h, andThen_next, hrest, andThen_next, hr]
  rfl

/-- One command alone. -/
theorem collect_submit_singleton {i : Instr} {s t : State} {r : Response} (h : exec i s = .next t)
    (hr : t.rsp = some r) : collect (submit [i]) s = .next (t, [r]) :=
  collect_submit_cons h hr (collect_nil t)

/-- A sequence and then another. -/
theorem collect_submit_append {is js : List Instr} {s t u : State} {rs qs : List Response}
    (h : collect (submit is) s = .next (t, rs)) (hrest : collect (submit js) t = .next (u, qs)) :
    collect (submit (is ++ js)) s = .next (u, rs ++ qs) := by
  rw [submit_append, collect_append, h, andThen_next, hrest, andThen_next]

/-- Rule R70 (a): once the fault has been answered, the ten gated commands leave the very state, each with that answer. -/
theorem collect_submit_gated {is : List Instr} {s : State} (hs : s.status ≠ .ok) (hr : s.rsp = some ⟨s.status, 0⟩)
    (his : ∀ i ∈ is, isGated i = true) :
    collect (submit is) s = .next (s, List.replicate is.length ⟨s.status, 0⟩) := by
  induction is with
  | nil => rfl
  | cons i is ih =>
    obtain ⟨hi, his⟩ := List.forall_mem_cons.mp his
    have hexec : exec i s = .next s := by
      rw [exec_gated_of_faulted hi hs, ← hr]
    exact collect_submit_cons hexec hr (ih his)

/-! ## The checksum -/

/-- Rules R105, R109: AUPDs fold their bytes into A and B, and each answers OK. -/
theorem collect_feed (data : List Byte) {s : State} (hs : s.status = .ok) :
    ∃ r, collect (submit (feed data)) s = .next
      ({ s with a := (data.foldl adlStep (s.a, s.b)).1, b := (data.foldl adlStep (s.a, s.b)).2, rsp := r },
        List.replicate data.length ⟨.ok, 0⟩) := by
  induction data generalizing s with
  | nil => exact ⟨s.rsp, rfl⟩
  | cons d data ih =>
    obtain ⟨r, hr⟩ := ih (s := { s with
      a := (adlStep (s.a, s.b) d).1, b := (adlStep (s.a, s.b) d).2, rsp := some ⟨.ok, 0⟩ }) hs
    exact ⟨r, collect_submit_cons (exec_aupd_of_ok hs d) rfl hr⟩

/-- Rule R106, no fault recorded: A and B to their start values. -/
theorem exec_ainit_of_ok {s : State} (hs : s.status = .ok) :
    exec .ainit s = .next { s with a := 1, b := 0, rsp := some ⟨.ok, 0⟩ } := by
  rw [exec_eq_effect, effect_of_ok hs]

/-- Rule R108, no fault recorded: the datum is the packed accumulators. -/
theorem exec_ard_of_ok {s : State} (hs : s.status = .ok) :
    exec .ard s = .next { s with rsp := some ⟨.ok, pack s.a s.b⟩ } := by
  rw [exec_eq_effect, effect_of_ok hs]

/-- AINIT and the AUPDs of a byte sequence, the part that CKSUM shares with the host's decode (rules R58, R94). -/
theorem collect_ainit_feed (data : List Byte) {s : State} (hs : s.status = .ok) :
    ∃ r, collect (submit (.ainit :: feed data)) s = .next
      ({ s with a := (accumulate data).1, b := (accumulate data).2, rsp := r },
        List.replicate (data.length + 1) ⟨.ok, 0⟩) := by
  obtain ⟨r, hr⟩ := collect_feed data (s := { s with a := 1, b := 0, rsp := some ⟨.ok, 0⟩ }) hs
  exact ⟨r, collect_submit_cons (exec_ainit_of_ok hs) rfl hr⟩

/-- Rule R109: CKSUM leaves the running values in A and B and answers the checksum last. -/
theorem collect_cksum (data : List Byte) {s : State} (hs : s.status = .ok) :
    collect (submit (cksum data)) s = .next
      ({ s with a := (accumulate data).1, b := (accumulate data).2, rsp := some ⟨.ok, checksum data⟩ },
        List.replicate (data.length + 1) ⟨.ok, 0⟩ ++ [⟨.ok, checksum data⟩]) := by
  obtain ⟨r, hr⟩ := collect_ainit_feed data hs
  exact collect_submit_append hr (collect_submit_singleton (exec_ard_of_ok hs) rfl)

/-- Settles O36: the state and the responses of AINIT, the AUPDs and ARD. -/
theorem cksumComputesChecksum : Obligations.CksumComputesChecksum := fun data s hs =>
  ⟨_, _, collect_cksum data hs, rfl, rfl, rfl, hs, List.getLast?_concat, by simp⟩

/-- The byte of an AUPD. -/
def aupdByte : Instr → Option Byte
  | .aupd d => some d
  | _ => none

/-- Rule R105: among the commands other than BEGIN and AINIT, AUPD alone writes A and B. -/
theorem effect_accumulators {i : Instr} {s : State} (hs : s.status = .ok) (hb : i ≠ .begin) (ha : i ≠ .ainit) :
    ((effect i s).a, (effect i s).b) = ([i].filterMap aupdByte).foldl adlStep (s.a, s.b) := by
  rw [effect_of_ok hs]
  cases i with
  | begin => exact absurd rfl hb
  | ainit => exact absurd rfl ha
  | _ => rfl

theorem endsConversion_encode {i : Instr} (hi : i ≠ .begin) : endsConversion (.command (encode i)) = false := by
  rw [endsConversion, decode_encode]
  simpa using hi

theorem clearsNothing_submit {is : List Instr} (h : .begin ∉ is) : clearsNothing (submit is) := by
  intro e he
  obtain ⟨i, hi, rfl⟩ := List.mem_map.mp he
  exact endsConversion_encode fun hb => h (hb ▸ hi)

/-- Rules R105, R109: without BEGIN and AINIT, a run that ends without a fault has no fault before, and so A and B are the
fold of the AUPD bytes. -/
theorem finalState_accumulators {is : List Instr} {s : State} (hb : .begin ∉ is) (ha : .ainit ∉ is)
    (hok : (finalState (submit is) s).status = .ok) :
    ((finalState (submit is) s).a, (finalState (submit is) s).b) = (is.filterMap aupdByte).foldl adlStep (s.a, s.b) := by
  induction is generalizing s with
  | nil => rfl
  | cons i is ih =>
    have hs : s.status = .ok := by
      by_contra hs
      exact hs (finalState_status_of_faulted hs (clearsNothing_submit hb) ▸ hok)
    obtain ⟨hbi, hb⟩ := List.ne_and_not_mem_of_not_mem_cons hb
    obtain ⟨hai, ha⟩ := List.ne_and_not_mem_of_not_mem_cons ha
    rw [finalState_submit_cons] at hok ⊢
    rw [ih hb ha hok, effect_accumulators hs hbi.symm hai.symm, ← List.foldl_append, ← List.filterMap_append]
    rfl

/-- Settles O37: by induction on the commands, none of which meets a recorded fault. -/
theorem interleavedCommandsKeepAccumulation : Obligations.InterleavedCommandsKeepAccumulation := by
  intro is s t rs hb ha h hok
  obtain ⟨rfl, -⟩ := collect_eq_next_iff.mp h
  exact finalState_accumulators hb ha hok

/-! ## The swap -/

/-- The responses to the SWAPs of a payload: the groups with their bytes exchanged (rules R125, R126). -/
def swapResponses : List Byte → List Response
  | x :: y :: rest => ⟨.ok, zextHalf (joinBytes y x)⟩ :: swapResponses rest
  | _ => []

/-- Rule R125: the SWAPs of a payload write no register. -/
theorem collect_swaps (p : List Byte) {s : State} (hs : s.status = .ok) (r : Response) (hr : s.rsp = some r) :
    ∃ r, collect (submit (swaps p)) s = .next ({ s with rsp := some r }, swapResponses p) := by
  induction p using List.twoStepInduction generalizing s r with
  | nil => exact ⟨r, by rw [← hr]; rfl⟩
  | singleton x => exact ⟨r, by rw [← hr]; rfl⟩
  | cons_cons x y p ih =>
    have hswap : exec (.swap (joinBytes x y)) s = .next { s with rsp := some ⟨.ok, zextHalf (joinBytes y x)⟩ } :=
      (exec_swap_of_ok hs _).trans (by rw [joinBytes, swapPair_append]; rfl)
    obtain ⟨q, hq⟩ := ih (s := { s with rsp := some ⟨.ok, zextHalf (joinBytes y x)⟩ }) hs _ rfl
    exact ⟨q, collect_submit_cons hswap rfl hq⟩

theorem swapResponses_status (p : List Byte) : ∀ r ∈ swapResponses p, r.status = .ok := by
  induction p using List.twoStepInduction with
  | nil | singleton => exact nofun
  | cons_cons x y p ih => exact List.forall_mem_cons.mpr ⟨rfl, ih⟩

/-- Rule R126: the data, unpacked high byte first, are the swapped payload. -/
theorem swapResponses_flatMap (p : List Byte) :
    (swapResponses p).flatMap (fun r => halfBytes (lowHalf r.data)) = swapPairs p := by
  induction p using List.twoStepInduction with
  | nil | singleton => rfl
  | cons_cons x y p ih =>
    rw [swapResponses, List.flatMap_cons, ih, lowHalf_zextHalf, halfBytes_joinBytes]
    rfl

theorem swapResponses_length (p : List Byte) : (swapResponses p).length = p.length / 2 := by
  induction p using List.twoStepInduction with
  | nil | singleton => simp [swapResponses]
  | cons_cons x y p ih =>
    simp only [swapResponses, List.length_cons, ih]
    omega

theorem swaps_gated (p : List Byte) : ∀ i ∈ swaps p, isGated i = true := by
  induction p using List.twoStepInduction with
  | nil | singleton => exact nofun
  | cons_cons x y p ih => exact List.forall_mem_cons.mpr ⟨rfl, ih⟩

theorem ofNat_length_toNat {p : List Byte} (hp : p.length < 2 ^ 32) : (BitVec.ofNat 32 p.length).toNat = p.length :=
  toNat_of_lengthOperand (lengthOperand_of_lt hp)

/-- Rule R126, even length: no register changes, and the responses after SLEN's are the swapped groups. -/
theorem collect_swapSeq_of_even {p : List Byte} {s : State} (hs : s.status = .ok) (hp : p.length < 2 ^ 32)
    (heven : p.length % 2 = 0) :
    ∃ r, collect (submit (.slen (BitVec.ofNat 32 p.length) :: swaps p)) s =
      .next ({ s with rsp := some r }, ⟨.ok, 0⟩ :: swapResponses p) := by
  obtain ⟨r, hr⟩ := collect_swaps p (s := { s with rsp := some ⟨.ok, 0⟩ }) hs _ rfl
  exact ⟨r, collect_submit_cons (exec_slen_of_even hs (by rw [ofNat_length_toNat hp, heven])) rfl hr⟩

/-- Rule R126, odd length: SLEN records the fault, and every SWAP answers it. -/
theorem collect_swapSeq_of_odd {p : List Byte} {s : State} (hs : s.status = .ok) (hp : p.length < 2 ^ 32)
    (hodd : p.length % 2 = 1) :
    collect (submit (.slen (BitVec.ofNat 32 p.length) :: swaps p)) s =
      .next ({ s with status := .invalidPayloadLength, rsp := some ⟨.invalidPayloadLength, 0⟩ },
        List.replicate ((swaps p).length + 1) ⟨.invalidPayloadLength, 0⟩) :=
  collect_submit_cons (exec_slen_of_odd hs (by rw [ofNat_length_toNat hp, hodd])) rfl
    (collect_submit_gated (by simp) rfl (swaps_gated p))

/-- Settles O41: SLEN decides by the length's parity; after it the SWAPs exchange every pair, or are gated. -/
theorem swapSequenceComputesSwap : Obligations.SwapSequenceComputesSwap := by
  refine ⟨fun p s hs hp heven => ?_, fun p s hs hp hodd => ?_, fun p hp => ?_⟩
  · obtain ⟨r, hr⟩ := collect_swapSeq_of_even hs hp heven
    exact ⟨_, r, _, swapSeq_of_lt hp, hr, List.forall_mem_cons.mpr ⟨rfl, swapResponses_status p⟩,
      swapResponses_length p, swapResponses_flatMap p⟩
  · exact ⟨_, _, swapSeq_of_lt hp, collect_swapSeq_of_odd hs hp hodd, fun x => List.eq_of_mem_replicate⟩
  · rw [swapSeq, lengthOperand_of_ge hp, Option.map_none]

end Sys2Proof.Machine
end

section
/-! SUPPORT. The statements about the envelope and the host's procedures (20_memory.md, 41_container.md, 43_byte_pair_swap.md,
70_reset_and_hazards.md). -/

namespace Sys2Proof.Machine

/-! ## The envelope's regions -/

theorem frame_length (h : Half) (body : List Byte) (c : Word) : (frame h body c).length = 6 + body.length := by
  simp only [frame, halfBytes, trailerBytes, List.length_append, List.length_cons, List.length_nil]
  omega

theorem headerOf_frame (h : Half) (body : List Byte) (c : Word) : headerOf (frame h body c) = h :=
  joinBytes_high_low h

theorem bodyOf_frame (h : Half) (body : List Byte) (c : Word) : bodyOf (frame h body c) = body := by
  have hlen : (frame h body c).length - trlLen = (halfBytes h ++ body).length := by
    rw [frame_length, List.length_append]
    simp only [trlLen, halfBytes, List.length_cons, List.length_nil]
    omega
  rw [bodyOf, hlen, frame, List.take_left]
  rfl

/-- The trailer value is its four bytes (rules R35, R37). -/
theorem joinTrailer_trailerBytes (c : Word) :
    joinTrailer (c.extractLsb' 24 8) (c.extractLsb' 16 8) (c.extractLsb' 8 8) (c.extractLsb' 0 8) = c := by
  have hc : c.toNat < 2 ^ 32 := c.isLt
  apply BitVec.eq_of_toNat_eq
  rw [joinTrailer_toNat]
  simp only [BitVec.extractLsb'_toNat, Nat.shiftRight_eq_div_pow]
  omega

theorem byteAt_append_right (l m : List Byte) (k : Nat) : byteAt (l ++ m) (l.length + k) = byteAt m k := by
  rw [byteAt, byteAt, List.getD_append_right _ _ _ _ (Nat.le_add_right _ _), Nat.add_sub_cancel_left]

theorem trailerOf_frame (h : Half) (body : List Byte) (c : Word) : trailerOf (frame h body c) = c := by
  have hpos : ∀ k ≤ 4, 0 < k →
      byteAt (frame h body c) ((frame h body c).length - k) = byteAt (trailerBytes c) (4 - k) := by
    intro k hk hk0
    have hlen : (frame h body c).length - k = (halfBytes h ++ body).length + (4 - k) := by
      rw [frame_length, List.length_append]
      simp only [halfBytes, List.length_cons, List.length_nil]
      omega
    rw [hlen, frame, byteAt_append_right]
  rw [trailerOf, hpos 4 (by decide) (by decide), hpos 3 (by decide) (by decide), hpos 2 (by decide) (by decide),
    hpos 1 (by decide) (by decide)]
  exact joinTrailer_trailerBytes c

theorem trailerBytes_joinTrailer (t0 t1 t2 t3 : Byte) : trailerBytes (joinTrailer t0 t1 t2 t3) = [t0, t1, t2, t3] := by
  simp only [trailerBytes, List.cons.injEq, and_true, ← BitVec.toNat_inj, BitVec.extractLsb'_toNat, joinTrailer_toNat,
    Nat.shiftRight_eq_div_pow]
  omega

/-- Rule R31: every sequence of at least 6 bytes has the three regions. -/
theorem exists_frame_of_length {e : List Byte} (he : 6 ≤ e.length) : ∃ h body c, e = frame h body c := by
  match e, he with
  | x :: y :: m, he =>
    have hm : 4 ≤ m.length := by simpa using he
    have hdrop : (m.drop (m.length - 4)).length = 4 := by
      rw [List.length_drop]
      omega
    match hd : m.drop (m.length - 4), hdrop with
    | [t0, t1, t2, t3], _ =>
      refine ⟨joinBytes x y, m.take (m.length - 4), joinTrailer t0 t1 t2 t3, ?_⟩
      rw [frame, halfBytes_joinBytes, trailerBytes_joinTrailer, ← hd, List.append_assoc, List.take_append_drop]
      rfl

/-- Settles O42: the regions are read at the places where they were put, and every long enough sequence is so put
together. -/
theorem envelopeRegionsReadBack : Obligations.EnvelopeRegionsReadBack := by
  refine ⟨fun h body c => ⟨headerOf_frame h body c, bodyOf_frame h body c, trailerOf_frame h body c,
    frame_length h body c⟩, fun e he => ?_⟩
  obtain ⟨h, body, c, rfl⟩ := exists_frame_of_length he
  rw [headerOf_frame, bodyOf_frame, trailerOf_frame]

/-! ## The reference functions -/

/-- Rule R87: a header fault ends the decode. -/
theorem decodeEnvelope_of_header_fault {g : Engine} {e : List Byte} (h : hdrCheck e.length (headerOf e) ≠ .ok) :
    decodeEnvelope g e = .error (hdrCheck e.length (headerOf e)) := if_pos h

/-- Rule R87: after an accepted header, an engine failure ends the decode. -/
theorem decodeEnvelope_of_inflate_none {g : Engine} {e : List Byte} (h : hdrCheck e.length (headerOf e) = .ok)
    (hg : g.inflate (bodyOf e) = none) : decodeEnvelope g e = .error .inflateFailure := by
  simp [decodeEnvelope, h, hg]

/-- Rule R87: a decompressed payload is returned if the trailer is its checksum. -/
theorem decodeEnvelope_of_inflate_some {g : Engine} {e p : List Byte} (h : hdrCheck e.length (headerOf e) = .ok)
    (hg : g.inflate (bodyOf e) = some p) :
    decodeEnvelope g e = if trailerOf e = checksum p then .ok p else .error .payloadChecksumMismatch := by
  simp only [decodeEnvelope, h, hg, trlCheck]
  split_ifs <;> simp_all

theorem encodeEnvelope_of_deflate_some {g : Engine} {p body : List Byte} (hg : g.deflate p = some body) :
    encodeEnvelope g p = .ok (frame (emittedHeader Config.flgConst) body (checksum p)) := by
  simp only [encodeEnvelope, hg]

theorem encodeEnvelope_of_deflate_none {g : Engine} {p : List Byte} (hg : g.deflate p = none) :
    encodeEnvelope g p = .error .deflateFailure := by
  simp only [encodeEnvelope, hg]

/-- Settles O43: the framed regions are read back; the emitted header is accepted, and the trailer is the checksum. -/
theorem decodeOfEncodeIsPayload : Obligations.DecodeOfEncodeIsPayload := by
  intro g hg p
  obtain ⟨body, hdef, hinf⟩ := hg p
  refine ⟨_, encodeEnvelope_of_deflate_some hdef, ?_⟩
  rw [decodeEnvelope_of_inflate_some (p := p), trailerOf_frame, if_pos rfl]
  · rw [headerOf_frame]
    exact hdrCheck_emittedHeader (by rw [frame_length]; omega) _
  · rw [bodyOf_frame, hinf]

/-! ## The host's procedures -/

/-- The procedure's outcome `o` from `s` is a state and the result `r`, which STATUS confirms (rules R94, R126, R173). -/
def Computes (o : Host.Outcome (State × Except Status (List Byte)) Fault Refusal) (s : State)
    (r : Except Status (List Byte)) : Prop :=
  ∃ t, o = .next (t, r) ∧ t.inbox = s.inbox ∧ (∀ p, r = .ok p → t.status = .ok) ∧ (∀ f, r = .error f → t.status = f)

/-- A result that the host keeps because STATUS is OK. -/
theorem Computes.of_ok {o : Host.Outcome (State × Except Status (List Byte)) Fault Refusal} {s t : State} {p : List Byte}
    (h : o = .next (t, .ok p)) (hin : t.inbox = s.inbox) (ht : t.status = .ok) : Computes o s (.ok p) :=
  ⟨t, h, hin, fun _ _ => ht, nofun⟩

/-- A fault that the host finds in STATUS. -/
theorem Computes.of_error {o : Host.Outcome (State × Except Status (List Byte)) Fault Refusal} {s t : State} {f : Status}
    (h : o = .next (t, .error f)) (hin : t.inbox = s.inbox) (ht : t.status = f) : Computes o s (.error f) :=
  ⟨t, h, hin, nofun, fun _ hf => ht.trans (Except.error.inj hf)⟩

theorem verdictOf_of_ok {α : Type} {s : State} (hs : s.status = .ok) (r : α) : verdictOf s r = .ok r := by
  rw [verdictOf, if_neg (Bool.eq_false_iff.mp (faulted_eq_false.mpr hs))]

theorem verdictOf_of_fault {α : Type} {s : State} {f : Status} (hs : s.status = f) (hf : f ≠ .ok) (r : α) :
    verdictOf s r = .error f := by
  rw [verdictOf, if_pos (faulted_eq_true.mpr (hs ▸ hf)), hs]

/-- Rules R74, R94: an engine failure is reported as the fault that `sel` chooses. -/
theorem reportEngine_computes {s t : State} (hs : t.status = .ok) (hin : t.inbox = s.inbox) (sel : BitVec 1) {f : Status}
    (hf : (if sel = 0 then Status.inflateFailure else .deflateFailure) = f) (hne : f ≠ .ok) :
    Computes (reportEngine sel [] t) s (.error f) := by
  have hexec : exec (.engf sel) t = .next { t with status := f, rsp := some ⟨f, 0⟩ } := by
    rw [exec_engf_of_ok hs, hf, raise_of_ok hs]
  refine .of_error (t := { t with status := f, rsp := some ⟨f, 0⟩ }) ?_ hin rfl
  rw [reportEngine, collect_submit_singleton hexec rfl, andThen_next, verdictOf_of_fault rfl hne]

/-! ### Decode -/

/-- The state after rule R94's first three commands: the start state with the envelope's length and the verdict on its
header. -/
def headerState (e : List Byte) (s : State) : State :=
  { a := 1, b := 0, len := BitVec.ofNat 32 e.length, status := hdrCheck e.length (headerOf e),
    rsp := some ⟨hdrCheck e.length (headerOf e), 0⟩, inbox := s.inbox }

/-- Rule R90, no fault recorded: LEN takes the operand. -/
theorem exec_hlen_of_ok {s : State} (hs : s.status = .ok) (w : Word) :
    exec (.hlen w) s = .next { s with len := w, rsp := some ⟨.ok, 0⟩ } := by
  rw [exec_eq_effect, effect_of_ok hs]

/-- Rule R94: BEGIN, HLEN and HCHK, from any state. -/
theorem collect_header {e : List Byte} (he : e.length < 2 ^ 32) (s : State) :
    ∃ rs, collect (submit [.begin, .hlen (BitVec.ofNat 32 e.length), .hchk (headerOf e)]) s =
      .next (headerState e s, rs) :=
  ⟨_, collect_submit_cons (exec_eq_effect .begin s) rfl <| collect_submit_cons (exec_hlen_of_ok rfl _) rfl <|
    collect_submit_singleton (exec_hchk_of_ok rfl (by rw [ofNat_length_toNat he])) rfl⟩

/-- Rule R94: a header fault ends the decode before the engine. -/
theorem hostDecode_of_header_fault {g : Engine} {e : List Byte} (he : e.length < 2 ^ 32) (s : State)
    (hv : hdrCheck e.length (headerOf e) ≠ .ok) :
    hostDecode g e s = .next (headerState e s, .error (hdrCheck e.length (headerOf e))) := by
  obtain ⟨rs, hrs⟩ := collect_header he s
  rw [hostDecode, lengthOperand_of_lt he, orRefuse_some, hrs, andThen_next, if_pos (faulted_eq_true.mpr hv)]
  rfl

/-- Rule R94: after an accepted header, a failure of the engine is reported. -/
theorem hostDecode_of_inflate_none {g : Engine} {e : List Byte} (he : e.length < 2 ^ 32) (s : State)
    (hv : hdrCheck e.length (headerOf e) = .ok) (hg : g.inflate (bodyOf e) = none) :
    hostDecode g e s = reportEngine 0 [] (headerState e s) := by
  obtain ⟨rs, hrs⟩ := collect_header he s
  rw [hostDecode, lengthOperand_of_lt he, orRefuse_some, hrs, andThen_next, faulted_eq_false.mpr hv, hg]
  rfl

/-- Rule R94: a decompressed payload is checked against the trailer, or refused where it is too long (decision D22). -/
theorem hostDecode_of_inflate_some {g : Engine} {e p : List Byte} (he : e.length < 2 ^ 32) (s : State)
    (hv : hdrCheck e.length (headerOf e) = .ok) (hg : g.inflate (bodyOf e) = some p) :
    hostDecode g e s = orRefuse (lengthOperand p) fun _ =>
      andThen (collect (submit (.ainit :: (feed p ++ [.tcmp (trailerOf e)]))) (headerState e s)) fun u =>
        .next (u.1, verdictOf u.1 p) := by
  obtain ⟨rs, hrs⟩ := collect_header he s
  rw [hostDecode, lengthOperand_of_lt he, orRefuse_some, hrs, andThen_next, faulted_eq_false.mpr hv, hg]
  rfl

theorem hostDecode_refused_of_envelope (g : Engine) {e : List Byte} (s : State) (he : 2 ^ 32 ≤ e.length) :
    hostDecode g e s = .refused .undeclarableLength := by
  rw [hostDecode, lengthOperand_of_ge he, orRefuse_none]

/-- Decision D22: a payload of 2^32 bytes or more is refused, whatever the length of the envelope. -/
theorem hostDecode_refused_of_payload {g : Engine} {e p : List Byte} (s : State)
    (hv : hdrCheck e.length (headerOf e) = .ok) (hg : g.inflate (bodyOf e) = some p) (hp : 2 ^ 32 ≤ p.length) :
    hostDecode g e s = .refused .undeclarableLength := by
  rcases Nat.lt_or_ge e.length (2 ^ 32) with he | he
  · rw [hostDecode_of_inflate_some he s hv hg, lengthOperand_of_ge hp, orRefuse_none]
  · exact hostDecode_refused_of_envelope g s he

/-- Rule R94's commands after the engine: the verdict on the trailer. -/
theorem collect_trailer (p : List Byte) (w : Word) {s : State} (hs : s.status = .ok) :
    ∃ t rs, collect (submit (.ainit :: (feed p ++ [.tcmp w]))) s = .next (t, rs) ∧
      t.status = trlCheck w (checksum p) ∧ t.inbox = s.inbox := by
  obtain ⟨r, hr⟩ := collect_ainit_feed p hs
  exact ⟨_, _, collect_submit_append hr (collect_submit_singleton (exec_tcmp_of_ok hs rfl) rfl), rfl, rfl⟩

/-- Rules R87, R94: the host's decode computes the reference decode. -/
theorem hostDecode_computes {g : Engine} {e : List Byte} (s : State) (he : e.length < 2 ^ 32)
    (hp : ∀ p, hdrCheck e.length (headerOf e) = .ok → g.inflate (bodyOf e) = some p → p.length < 2 ^ 32) :
    Computes (hostDecode g e s) s (decodeEnvelope g e) := by
  by_cases hv : hdrCheck e.length (headerOf e) = .ok
  case neg =>
    rw [decodeEnvelope_of_header_fault hv]
    exact .of_error (hostDecode_of_header_fault he s hv) rfl rfl
  cases hg : g.inflate (bodyOf e) with
  | none =>
    rw [decodeEnvelope_of_inflate_none hv hg, hostDecode_of_inflate_none he s hv hg]
    exact reportEngine_computes hv rfl 0 rfl (by decide)
  | some p =>
    obtain ⟨t, rs, hrun, hst, hin⟩ := collect_trailer p (trailerOf e) (s := headerState e s) hv
    rw [decodeEnvelope_of_inflate_some hv hg, hostDecode_of_inflate_some he s hv hg, lengthOperand_of_lt (hp p hv hg),
      orRefuse_some, hrun, andThen_next]
    rw [trlCheck] at hst
    split_ifs at hst ⊢
    · exact .of_ok (by rw [verdictOf_of_ok hst]) hin hst
    · exact .of_error (by rw [verdictOf_of_fault hst (by decide)]) hin hst

/-- Settles O44: by the header's verdict, the engine's answer and the trailer's verdict. -/
theorem hostDecodeComputesDecode : Obligations.HostDecodeComputesDecode :=
  ⟨fun _ _ => hostDecode_computes, fun g _ => hostDecode_refused_of_envelope g,
    fun _ _ s _ => hostDecode_refused_of_payload s⟩

/-! ### Swap -/

/-- Rules R120, R126: the host's swap of an even length unpacks the swapped payload from the SWAPs' data. -/
theorem hostSwap_of_even {p : List Byte} {s : State} (hs : s.status = .ok) (hp : p.length < 2 ^ 32)
    (heven : p.length % 2 = 0) : ∃ r, hostSwap p s = .next ({ s with status := .ok, rsp := r }, .ok (swapPairs p)) := by
  obtain ⟨r, hr⟩ := collect_swapSeq_of_even hs hp heven
  refine ⟨some r, ?_⟩
  rw [hostSwap, swapSeq_of_lt hp, orRefuse_some, hr, andThen_next, verdictOf_of_ok (s := { s with rsp := some r }) hs,
    status_ok_eq_self hs, ← swapResponses_flatMap]
  rfl

/-- Rules R123, R126: on an odd length the host finds the fault in STATUS. -/
theorem hostSwap_of_odd {p : List Byte} {s : State} (hs : s.status = .ok) (hp : p.length < 2 ^ 32)
    (hodd : p.length % 2 = 1) : ∃ r, hostSwap p s =
      .next ({ s with status := .invalidPayloadLength, rsp := r }, .error .invalidPayloadLength) := by
  refine ⟨some ⟨.invalidPayloadLength, 0⟩, ?_⟩
  rw [hostSwap, swapSeq_of_lt hp, orRefuse_some, collect_swapSeq_of_odd hs hp hodd, andThen_next,
    verdictOf_of_fault (f := .invalidPayloadLength) rfl (by decide)]

/-- From a state without a fault the host's swap computes the reference swap, and writes no register but STATUS. -/
theorem hostSwap_eq_next {p : List Byte} {s : State} (hs : s.status = .ok) (hp : p.length < 2 ^ 32) :
    ∃ v r, hostSwap p s = .next ({ s with status := v, rsp := r }, swapPayload p) ∧
      (∀ q, swapPayload p = .ok q → v = .ok) ∧ (∀ f, swapPayload p = .error f → v = f) := by
  rcases Nat.mod_two_eq_zero_or_one p.length with heven | hodd
  · obtain ⟨r, h⟩ := hostSwap_of_even hs hp heven
    rw [swapPayload_of_even heven]
    exact ⟨_, _, h, fun _ _ => rfl, nofun⟩
  · obtain ⟨r, h⟩ := hostSwap_of_odd hs hp hodd
    rw [swapPayload_of_odd hodd]
    exact ⟨_, _, h, nofun, fun _ => Except.error.inj⟩

theorem hostSwap_computes {p : List Byte} {s t : State} (ht : t.status = .ok) (hin : t.inbox = s.inbox)
    (hp : p.length < 2 ^ 32) : Computes (hostSwap p t) s (swapPayload p) := by
  obtain ⟨v, r, h, hok, herr⟩ := hostSwap_eq_next ht hp
  exact ⟨_, h, hin, hok, herr⟩

/-- Settles O52: SLEN and the SWAPs compute the swap or its fault, and write no register but STATUS. -/
theorem hostSwapComputesSwap : Obligations.HostSwapComputesSwap := by
  refine ⟨fun p s hs hp => ?_, fun p s hp => ?_⟩
  · obtain ⟨v, r, h, hok, herr⟩ := hostSwap_eq_next hs hp
    exact ⟨_, h, rfl, rfl, rfl, rfl, hok, herr⟩
  · rw [hostSwap, swapSeq, lengthOperand_of_ge hp, Option.map_none, orRefuse_none]

/-! ### Encode -/

/-- Rule R94's commands of an encode: the header first, the checksum last. -/
theorem collect_hemit_cksum (q : List Byte) {s : State} (hs : s.status = .ok) :
    ∃ t rs, collect (submit (.hemit :: cksum q)) s = .next (t, rs) ∧ t.status = .ok ∧ t.inbox = s.inbox ∧
      lowHalf (dataOf rs.head?) = emittedHeader Config.flgConst ∧ dataOf rs.getLast? = checksum q := by
  refine ⟨_, _, collect_submit_cons (exec_hemit_of_ok hs) rfl (collect_cksum q hs), hs, rfl, lowHalf_zextHalf _, ?_⟩
  rw [← List.cons_append, List.getLast?_concat]
  rfl

/-- Rules R88, R94: from a state without a fault the host's encode computes the reference encode. -/
theorem hostEncode_computes (g : Engine) {q : List Byte} {s t : State} (ht : t.status = .ok) (hin : t.inbox = s.inbox)
    (hq : q.length < 2 ^ 32) : Computes (hostEncode g q t) s (encodeEnvelope g q) := by
  rw [hostEncode, lengthOperand_of_lt hq, orRefuse_some]
  cases hg : g.deflate q with
  | none =>
    rw [encodeEnvelope_of_deflate_none hg]
    exact reportEngine_computes ht hin 1 rfl (by decide)
  | some body =>
    obtain ⟨u, rs, hrun, hst, hu, hhead, hlast⟩ := collect_hemit_cksum q ht
    rw [encodeEnvelope_of_deflate_some hg]
    refine .of_ok (t := u) ?_ (hu.trans hin) hst
    simp only [hrun, andThen_next, verdictOf_of_ok hst, hhead, hlast]

/-- Settles O45: by the engine's answer; the first and the last response carry the header and the trailer. -/
theorem hostEncodeComputesEncode : Obligations.HostEncodeComputesEncode := by
  refine ⟨fun g q s hs hq => hostEncode_computes g hs rfl hq, fun g q s hq => ?_⟩
  rw [hostEncode, lengthOperand_of_ge hq, orRefuse_none]

/-! ### The whole conversion -/

/-- A later part goes on from the state the part before leaves, which has no fault when there is a result. -/
theorem Computes.continueWith_ok {o : Host.Outcome (State × Except Status (List Byte)) Fault Refusal} {s : State}
    {p : List Byte} {r : Except Status (List Byte)}
    {f : List Byte → State → Host.Outcome (State × Except Status (List Byte)) Fault Refusal}
    (h : Computes o s (.ok p)) (hf : ∀ t : State, t.status = .ok → t.inbox = s.inbox → Computes (f p t) s r) :
    Computes (continueWith o f) s r := by
  obtain ⟨t, rfl, hin, hok, -⟩ := h
  exact hf t (hok p rfl) hin

/-- A part without a result ends the conversion. -/
theorem Computes.continueWith_error {o : Host.Outcome (State × Except Status (List Byte)) Fault Refusal} {s : State}
    {e : Status} {f : List Byte → State → Host.Outcome (State × Except Status (List Byte)) Fault Refusal}
    (h : Computes o s (.error e)) : Computes (continueWith o f) s (.error e) := by
  obtain ⟨t, rfl, hin, -, herr⟩ := h
  exact .of_error rfl hin (herr e rfl)

theorem continueWith_refused (r : Refusal)
    (f : List Byte → State → Host.Outcome (State × Except Status (List Byte)) Fault Refusal) :
    continueWith (.refused r) f = .refused r := rfl

/-- Rule R87: a payload is what the engine gave after an accepted header. -/
theorem inflate_of_decodeEnvelope_ok {g : Engine} {e p : List Byte} (h : decodeEnvelope g e = .ok p) :
    hdrCheck e.length (headerOf e) = .ok ∧ g.inflate (bodyOf e) = some p := by
  by_cases hv : hdrCheck e.length (headerOf e) = .ok
  case neg =>
    rw [decodeEnvelope_of_header_fault hv] at h
    cases h
  cases hg : g.inflate (bodyOf e) with
  | none =>
    rw [decodeEnvelope_of_inflate_none hv hg] at h
    cases h
  | some q =>
    rw [decodeEnvelope_of_inflate_some hv hg] at h
    split_ifs at h
    cases h
    exact ⟨hv, rfl⟩

theorem convert_of_decode_error {g : Engine} {e : List Byte} {f : Status} (hd : decodeEnvelope g e = .error f) :
    convert g e = .error f := by
  simp only [convert, hd]

theorem convert_of_swap_error {g : Engine} {e p : List Byte} {f : Status} (hd : decodeEnvelope g e = .ok p)
    (hs : swapPayload p = .error f) : convert g e = .error f := by
  simp only [convert, hd, hs]

theorem convert_of_swap_ok {g : Engine} {e p q : List Byte} (hd : decodeEnvelope g e = .ok p)
    (hs : swapPayload p = .ok q) : convert g e = encodeEnvelope g q := by
  simp only [convert, hd, hs]

/-- Rules R89, R173: the host's conversion computes the reference conversion. -/
theorem hostConvert_computes {g : Engine} {e : List Byte} (s : State) (he : e.length < 2 ^ 32)
    (hp : ∀ p, hdrCheck e.length (headerOf e) = .ok → g.inflate (bodyOf e) = some p → p.length < 2 ^ 32) :
    Computes (hostConvert g e s) s (convert g e) := by
  have hdec := hostDecode_computes s he hp
  rw [hostConvert]
  cases hd : decodeEnvelope g e with
  | error f =>
    rw [hd] at hdec
    rw [convert_of_decode_error hd]
    exact hdec.continueWith_error.continueWith_error
  | ok p =>
    rw [hd] at hdec
    obtain ⟨hv, hg⟩ := inflate_of_decodeEnvelope_ok hd
    have hplen := hp p hv hg
    have hswap : Computes (continueWith (hostDecode g e s) hostSwap) s (swapPayload p) :=
      hdec.continueWith_ok fun t ht hin => hostSwap_computes ht hin hplen
    cases hs : swapPayload p with
    | error f =>
      rw [hs] at hswap
      rw [convert_of_swap_error hd hs]
      exact hswap.continueWith_error
    | ok q =>
      rw [hs] at hswap
      rw [convert_of_swap_ok hd hs]
      obtain ⟨heven, rfl⟩ := swapPayload_eq_ok_iff.mp hs
      have hqlen : (swapPairs p).length < 2 ^ 32 := by rwa [length_swapPairs p heven]
      exact hswap.continueWith_ok fun t ht hin => hostEncode_computes g ht hin hqlen

/-- Settles O46: each part starts without a fault from where the part before ended with a result; the first fault ends the
conversion, and a refused decode refuses it. -/
theorem hostConversionComputesConvert : Obligations.HostConversionComputesConvert := by
  refine ⟨fun _ _ => hostConvert_computes, fun g e s he => ?_, fun g e s p hv hg hp => ?_⟩
  · rw [hostConvert, hostDecode_refused_of_envelope g s he, continueWith_refused, continueWith_refused]
  · rw [hostConvert, hostDecode_refused_of_payload s hv hg hp, continueWith_refused, continueWith_refused]

end Sys2Proof.Machine
end
